-- ==== Sys2Proof/Word.lean ====
section
/-! DEFINITION. The word types of the block (00_scope.md R6: a value of width n is a vector of n bits numbered
n-1 down to 0). -/

namespace Sys2Proof

/-- `u64` of 00_scope.md R6: an unsigned 64-bit value, whose arithmetic wraps modulo 2^64 (R7). -/
abbrev Word64 := BitVec 64

/-- A 32-bit value (`i32` patterns, binary32 patterns). -/
abbrev Word32 := BitVec 32

/-- The command word `cmd[71:0]` (30_encoding.md R30). -/
abbrev CmdWord := BitVec 72

/-- The response word `rsp[65:0]` (30_encoding.md R31). -/
abbrev RspWord := BitVec 66

/-- One byte of a host buffer (44_pseudo_ops.md R96). -/
abbrev Byte := BitVec 8

end Sys2Proof
end

