-- ==== Sys2Proof/Syntax.lean ====
section
/-! DEFINITION. The commands of the block: one constructor per row of spec/opcode_table.json (30_encoding.md R32, R33). -/

namespace Sys2Proof

/-- A decoded command with its operand (30_encoding.md R32, R33). -/
inductive Instr where
  /-- SEED: `seed` is the 64-bit pattern of the source's `i64`; every value is legal. -/
  | seed (seed : Word64)
  /-- MIX: every value of `z` is legal. -/
  | mix (z : Word64)
  /-- NEXT64: no operand. -/
  | next64
  /-- BOUNDED: `bound` is a 32-bit two's complement pattern; every pattern decodes. -/
  | bounded (bound : Word32)
  /-- F64: no operand. -/
  | f64
  /-- F32: no operand. -/
  | f32
deriving DecidableEq, Repr

/-- The mnemonic of a command (30_encoding.md R32). -/
def Instr.mnemonic : Instr → String
  | .seed _ => "SEED"
  | .mix _ => "MIX"
  | .next64 => "NEXT64"
  | .bounded _ => "BOUNDED"
  | .f64 => "F64"
  | .f32 => "F32"

end Sys2Proof
end

