-- ==== Sys2Proof/WellFormed.lean ====
section
/-! DEFINITION. What is well formed: every term of `Instr` (its types carry every width), and, among the raw 72-bit words,
those that match a row of the command table (30_encoding.md R32, R38). -/

namespace Sys2Proof

/-- One row of spec/opcode_table.json: a word `w` matches when `w &&& mask = value`. -/
structure OpcodeRow where
  mnemonic : String
  mask : CmdWord
  value : CmdWord
deriving DecidableEq, Repr

/-- spec/opcode_table.json, row by row. Formats (30_encoding.md R30): Q fixes `op` only, B fixes `op` and `arg[63:32]`,
N fixes every bit. -/
def opcodeTable : List OpcodeRow :=
  [ ⟨"SEED",    0xFF0000000000000000, 0x010000000000000000⟩,
    ⟨"MIX",     0xFF0000000000000000, 0x020000000000000000⟩,
    ⟨"NEXT64",  0xFFFFFFFFFFFFFFFFFF, 0x100000000000000000⟩,
    ⟨"BOUNDED", 0xFFFFFFFFFF00000000, 0x110000000000000000⟩,
    ⟨"F64",     0xFFFFFFFFFFFFFFFFFF, 0x120000000000000000⟩,
    ⟨"F32",     0xFFFFFFFFFFFFFFFFFF, 0x130000000000000000⟩ ]

/-- `cmd & mask = match` of 30_encoding.md R38. -/
def OpcodeRow.fits (r : OpcodeRow) (w : CmdWord) : Bool := (w &&& r.mask) == r.value

/-- A raw word is well formed when some row of the table fits it (30_encoding.md R38); any other word is illegal
(30_encoding.md R34, R35). -/
def legalWord (w : CmdWord) : Bool := opcodeTable.any (fun r => r.fits w)

/-- Every term of `Instr` is a well-formed command: 30_encoding.md R33 puts no condition on any operand that its type does
not already carry (a non-positive bound decodes and is answered by the command itself). -/
def Instr.wellFormed : Instr → Bool
  | .seed _ => true
  | .mix _ => true
  | .next64 => true
  | .bounded _ => true
  | .f64 => true
  | .f32 => true

end Sys2Proof
end

