-- ==== Sys2Proof/Decode.lean ====
section
/-! DEFINITION. The decoder, total on all 2^72 command words (30_encoding.md R38), and the encoder, both from
30_encoding.md R30, R32, R33. -/

namespace Sys2Proof

/-- Why a word is illegal, in the order of 30_encoding.md R38: (1) a reserved opcode (R34); (2) non-zero reserved bits of
`arg` (R35). -/
inductive Illegal where
  | reservedOpcode (op : BitVec 8)
  | reservedOperand (op : BitVec 8)
deriving DecidableEq, Repr

/-- What the decoder says of a word. -/
inductive Decoded where
  | instr (i : Instr)
  | illegal (why : Illegal)
deriving DecidableEq, Repr

/-- The command of a decoded word, if it is one. -/
def Decoded.toInstr? : Decoded → Option Instr
  | .instr i => some i
  | .illegal _ => none

/-- `op`: bits 71:64 (30_encoding.md R30). -/
def opField (w : CmdWord) : BitVec 8 := w.extractLsb' 64 8

/-- `arg`: bits 63:0 (30_encoding.md R30). -/
def argField (w : CmdWord) : Word64 := w.extractLsb' 0 64

/-- `arg[63:32]`, reserved in format B (30_encoding.md R30). -/
def argHigh (w : CmdWord) : Word32 := w.extractLsb' 32 32

/-- `arg[31:0]`, the bound of format B (30_encoding.md R30, R33). -/
def argLow (w : CmdWord) : Word32 := w.extractLsb' 0 32

/-- A format N command: `arg` must be 0 (30_encoding.md R35). -/
def decodeN (w : CmdWord) (i : Instr) : Decoded :=
  if argField w = 0 then .instr i else .illegal (.reservedOperand (opField w))

/-- A format B command: `arg[63:32]` must be 0; the bound is `arg[31:0]` (30_encoding.md R33, R35). -/
def decodeB (w : CmdWord) : Decoded :=
  if argHigh w = 0 then .instr (.bounded (argLow w)) else .illegal (.reservedOperand (opField w))

/-- The decoding procedure (30_encoding.md R38) over the opcode map (R32). It depends on the word alone (R36). -/
def decode (w : CmdWord) : Decoded :=
  if opField w = 0x01 then .instr (.seed (argField w))
  else if opField w = 0x02 then .instr (.mix (argField w))
  else if opField w = 0x10 then decodeN w .next64
  else if opField w = 0x11 then decodeB w
  else if opField w = 0x12 then decodeN w .f64
  else if opField w = 0x13 then decodeN w .f32
  else .illegal (.reservedOpcode (opField w))

/-- The opcode map (30_encoding.md R32). -/
def Instr.opcode : Instr → BitVec 8
  | .seed _ => 0x01
  | .mix _ => 0x02
  | .next64 => 0x10
  | .bounded _ => 0x11
  | .f64 => 0x12
  | .f32 => 0x13

/-- The operand assembly (30_encoding.md R33): a bound is not sign-extended. -/
def Instr.arg : Instr → Word64
  | .seed v => v
  | .mix z => z
  | .next64 => 0
  | .bounded b => b.setWidth 64
  | .f64 => 0
  | .f32 => 0

/-- The command word `{op, arg}` (30_encoding.md R30). -/
def encode (i : Instr) : CmdWord := i.opcode ++ i.arg

/-- The command the decoder reads from an instruction whose bits are `w` as spec/opcode_table.json numbers them: `op` is
bits 71:64 and `arg` bits 63:0 of one 72-bit number (log entry 7). Bits from `nbits` up are 0. -/
def decodeTableWord (nbits w : Nat) : Option Instr :=
  (decode (BitVec.ofNat 72 (w % 2 ^ nbits))).toInstr?

end Sys2Proof
end

