-- ==== Sys2Proof/Config.lean ====
section
/-! DEFINITION. The free values of the model. The block itself has no parameter an implementation may choose
(00_scope.md R5); these constants have no body, so nothing can be proved of their values. -/

namespace Sys2Proof

/-- What `s0` holds after a reset: the spec gives no value and forbids assuming one (10_state.md R20).
DESIGN CHOICE (log entry 1): one unknown constant. -/
opaque Config.resetS0 : Word64

/-- What `s1` holds after a reset (10_state.md R20). DESIGN CHOICE (log entry 1): one unknown constant. -/
opaque Config.resetS1 : Word64

/-- `Config.defaultSeed n` is the default seed the environment supplies to the `n`-th `new_default`: an arbitrary 64-bit
value under no law (44_pseudo_ops.md R92, 92_eei_decisions.md D22). Log entry 5. -/
opaque Config.defaultSeed : Nat → Word64

end Sys2Proof
end

