-- ==== Sys2Proof/Machine/State.lean ====
section
/-! DEFINITION. The state of the block as plain data, the reasons a step can stop, and the state after reset. -/

namespace Sys2Proof.Machine

/-- The status of a response (60_exceptions.md R100). -/
inductive Status where
  | ok
  | invalidArgument
  | unseeded
  | illegal
deriving DecidableEq, Repr

/-- A response: a 2-bit status and a 64-bit result (30_encoding.md R31). -/
structure Response where
  status : Status
  result : Word64
deriving DecidableEq, Repr

/-- The pair of state words, the source's GeneratorState (00_scope.md R9). -/
structure Gen where
  s0 : Word64
  s1 : Word64
deriving DecidableEq, Repr

/-- The inputs of one step, at the ports of 30_encoding.md R39: `rst`; `cmd` is the presented word when `cmd_valid = 1` and
absent when it is 0; `rspReady` is `rsp_ready`. -/
structure HostInput where
  rst : Bool
  cmd : Option CmdWord
  rspReady : Bool
deriving DecidableEq, Repr

/-- A host that does nothing in this step. -/
def HostInput.quiet : HostInput := ⟨false, none, false⟩

/-- The state of the block (10_state.md), and the model's two own fields `host` and `trace`. -/
structure State where
  /-- The response held until the host takes it (30_encoding.md R39, 70_reset_and_hazards.md R129). -/
  rsp : Option Response
  /-- While a BOUNDED is on the rejection path and has had a draw rejected: the state words as its draws so far have left
  them; they become `s0`, `s1` when the command completes (00_scope.md R8, 10_state.md R19, 42_bounded.md R73; log entry 2). -/
  work : Option Gen
  /-- The command in the block: accepted, its response not yet delivered (30_encoding.md R40, 10_state.md R19). -/
  cmd : Option CmdWord
  /-- State word 0 (10_state.md R10). -/
  s0 : Word64
  /-- State word 1 (10_state.md R10). -/
  s1 : Word64
  /-- Whether a SEED has completed since reset (10_state.md R13). -/
  seeded : Bool
  /-- The model's own field: the inputs of the coming steps, one a step, oldest first; past its end the host does nothing
  (70_reset_and_hazards.md R129; log entry 3). -/
  host : List HostInput
  /-- The model's own field: the (command word, response) pairs delivered since the last reset, oldest first
  (70_reset_and_hazards.md R128; log entry 4). -/
  trace : List (CmdWord × Response)
deriving DecidableEq, Repr

/-- The faults of the block: none. Every error is a response status that leaves the block as it was (60_exceptions.md R105),
and nothing stops it (R106). No one raises a fault. -/
inductive Fault where
deriving DecidableEq, Repr

/-- The refusals of the model. -/
inductive Refusal where
  /-- Raised by `exec` for a command that has no meaning yet, by its mnemonic; safe (nothing can be proved of the command).
  Every command has its meaning, so no arm raises it. -/
  | notModelled (mnemonic : String)
deriving DecidableEq, Repr

/-- The outcome of a step. -/
abbrev Outcome := Host.Outcome State Fault Refusal

/-- The state after reset (10_state.md R20, 70_reset_and_hazards.md R120): not seeded, no command in the block, no response
held. The state words hold no value the spec gives: free constants (log entry 1). The model's own fields are empty: a host
that does nothing (log entry 3) and nothing delivered (log entry 4). -/
def State.reset : State :=
  { rsp := none, work := none, cmd := none, s0 := Config.resetS0, s1 := Config.resetS1, seeded := false,
    host := [], trace := [] }

/-- The two state words as a pair. -/
def State.gen (s : State) : Gen := ⟨s.s0, s.s1⟩

end Sys2Proof.Machine
end

