-- ==== Sys2Proof/Machine/Operands.lean ====
section
/-! DEFINITION. Operands, slices and results: how a bound is read (30_encoding.md R33), which bits of a raw output each
command uses, and the layout of narrow results and of the response word (30_encoding.md R31, R37). -/

namespace Sys2Proof.Machine

/-- `sint_32(arg[31:0]) <= 0`, the signed test of 42_bounded.md R71. -/
def nonPositive (bound : Word32) : Bool := decide (bound.toInt ≤ 0)

/-- A result in `result[31:0]` with `result[63:32] = 0` (30_encoding.md R37): `zext_64`. -/
def zext64 (v : Word32) : Word64 := v.setWidth 64

/-- `trunc_32` (00_scope.md R6). -/
def trunc32 (w : Word64) : Word32 := w.setWidth 32

/-- `w[31:1]`, the 31-bit candidate of the rejection path (42_bounded.md R73). -/
def candidate (w : Word64) : BitVec 31 := w.extractLsb' 1 31

/-- `w[63:11]`, the top 53 bits (43_float.md R80). -/
def top53 (w : Word64) : BitVec 53 := w.extractLsb' 11 53

/-- `w[63:40]`, the top 24 bits (43_float.md R83). -/
def top24 (w : Word64) : BitVec 24 := w.extractLsb' 40 24

/-- The code of a status (60_exceptions.md R100). -/
def Status.code : Status → BitVec 2
  | .ok => 0
  | .invalidArgument => 1
  | .unseeded => 2
  | .illegal => 3

/-- The response word: status in bits 65:64, result in bits 63:0 (30_encoding.md R31). -/
def Response.word (r : Response) : RspWord := r.status.code ++ r.result

/-- The response a 66-bit word stands for (30_encoding.md R31; every status code is assigned, 60_exceptions.md R100). -/
def Response.ofWord (w : RspWord) : Response :=
  { status :=
      if w.extractLsb' 64 2 = 0 then .ok
      else if w.extractLsb' 64 2 = 1 then .invalidArgument
      else if w.extractLsb' 64 2 = 2 then .unseeded
      else .illegal
    result := w.extractLsb' 0 64 }

end Sys2Proof.Machine
end

