-- ==== Sys2Proof/Machine/Ops.lean ====
section
/-! DEFINITION. The shared operations: answering a command, failing a command (the block's whole trap entry), writing the
state words, and the port events accept, deliver and reset. -/

namespace Sys2Proof.Machine

/-- `respond(status, result)` (00_scope.md R8, 30_encoding.md R31): the command completes and its response is held. Nothing
the block held for the command's execution survives it (10_state.md R19). -/
def respond (status : Status) (result : Word64) (s : State) : State :=
  { s with work := none, rsp := some ⟨status, result⟩ }

/-- A command that fails (60_exceptions.md R105, "the block's whole trap entry"): its response carries the status and
`result = 0` and nothing else happens; `s0`, `s1` and `seeded` keep their values, nothing is saved, control goes nowhere.
There is no return from it (R106). -/
def fail (status : Status) (s : State) : State := respond status 0 s

/-- A command that writes the state words completes (00_scope.md R8): `s0 <- g.s0 ; s1 <- g.s1`, and the response is `OK` with
`result`, all in one update. -/
def complete (g : Gen) (result : Word64) (s : State) : State :=
  { s with rsp := some ⟨.ok, result⟩, work := none, s0 := g.s0, s1 := g.s1 }

/-- A draw of the command in the block was rejected: the words it left are kept for the command's next draw
(42_bounded.md R73); no response yet (70_reset_and_hazards.md R125). -/
def holdDraw (g : Gen) (s : State) : State := { s with work := some g }

/-- The words the next draw of the command in the block starts from: those its earlier draws left, else `s0`, `s1`
(20_memory.md R25: the draws happen in sequence, each on the state the previous one left). -/
def working (s : State) : Gen := s.work.getD s.gen

/-- The inputs of this step (70_reset_and_hazards.md R129). -/
def hostNow (s : State) : HostInput := s.host.headD HostInput.quiet

/-- The state with this step's inputs taken off. -/
def hostLater (s : State) : State := { s with host := s.host.tail }

/-- `cmd_ready`: 0 from the acceptance of a command until its response has been delivered (30_encoding.md R40). -/
def cmdReady (s : State) : Bool := s.cmd.isNone

/-- `rsp_valid` (30_encoding.md R39): a response is held. -/
def rspValid (s : State) : Bool := s.rsp.isSome

/-- `rsp_word` (30_encoding.md R39), absent while `rsp_valid = 0`. -/
def rspWord (s : State) : Option RspWord := s.rsp.map Response.word

/-- Acceptance (30_encoding.md R39): a presented word enters the block; with `cmd_valid = 0` nothing happens. -/
def accept (c : Option CmdWord) (s : State) : State :=
  match c with
  | some w => { s with cmd := some w, work := none, rsp := none }
  | none => s

/-- Delivery (30_encoding.md R39): with `rsp_ready = 1` the pair of command word and response becomes visible
(70_reset_and_hazards.md R128) and the block is idle again; with `rsp_ready = 0` the response is held unchanged (R129). -/
def deliver (ready : Bool) (w : CmdWord) (r : Response) (s : State) : State :=
  if ready then { s with cmd := none, work := none, rsp := none, trace := s.trace ++ [(w, r)] } else s

/-- Reset (70_reset_and_hazards.md R120, R121): the reset state, whatever the block was doing; a command in the block is
abandoned without a response, and a new run begins (R128). The coming inputs are the host's and stay. -/
def resetBlock (s : State) : State := { State.reset with host := s.host }

end Sys2Proof.Machine
end

