-- ==== Sys2Proof/Machine/Flags.lean ====
section
/-! DEFINITION. The one flag-like bit of the block, `seeded` (10_state.md R13, R15: there are no condition codes, carry,
overflow or zero flags). -/

namespace Sys2Proof.Machine

/-- The state check of a drawing command (60_exceptions.md R102): with `seeded = 0` the answer is UNSEEDED, no state word is
read and no draw is made; otherwise the command goes on. It comes after the checks on the word and on the argument
(R104). -/
def requireSeeded (s go : State) : State := if s.seeded then go else fail .unseeded s

/-- `seeded <- 1` (10_state.md R13: only SEED sets it). -/
def markSeeded (s : State) : State := { s with seeded := true }

end Sys2Proof.Machine
end

