-- ==== Sys2Proof/Machine/Generator.lean ====
section
/-! DEFINITION. The state transition, the raw output, the primitive `draw()` and the command NEXT64 (41_generator.md). -/

namespace Sys2Proof.Machine

/-- `advance` (41_generator.md R60); every right shift is logical. -/
def advance (g : Gen) : Gen :=
  let x1 := g.s0 ^^^ (g.s0 <<< 23)
  let x2 := x1 ^^^ (x1 >>> 17)
  let x3 := x2 ^^^ g.s1 ^^^ (g.s1 >>> 26)
  ⟨g.s1, x3⟩

/-- `output` (41_generator.md R61): the wrapping sum of the two words as they are before the transition. -/
def output (g : Gen) : Word64 := g.s0 + g.s1

/-- `draw()` (41_generator.md R63): the raw output of `g` and the words after the transition. -/
def draw (g : Gen) : Word64 × Gen := (output g, advance g)

/-- A command that makes exactly one draw and answers `f w` of the raw output `w` (41_generator.md R64, 43_float.md R82, R85). -/
def drawOnce (f : Word64 → Word64) (s : State) : State :=
  complete (draw s.gen).2 (f (draw s.gen).1) s

/-- NEXT64 (41_generator.md R64): one draw, the raw output is the result. -/
def execNext64 (s : State) : Outcome :=
  .next (requireSeeded s (drawOnce (fun w => w) s))

end Sys2Proof.Machine
end

