-- ==== Sys2Proof/Machine/Bounded.lean ====
section
/-! DEFINITION. The bounded-integer rejection sampler: command BOUNDED (42_bounded.md). -/

namespace Sys2Proof.Machine

/-- `INT32_MAX` = 2^31 - 1 (00_scope.md R5). -/
def int32Max : Nat := 2147483647

/-- The threshold `T(b)` (42_bounded.md R74). -/
def threshold (b : Nat) : Nat := int32Max - int32Max % b

/-- `(b & (b - 1)) == 0` (42_bounded.md R72, 90_conflicts.md C4). -/
def powerOfTwo (bound : Word32) : Bool := (bound &&& (bound - 1)) == 0

/-- `trunc_32(w & zext_64(b - 1))` (42_bounded.md R70, R72). -/
def maskDraw (bound : Word32) (w : Word64) : Word64 := zext64 (trunc32 (w &&& zext64 (bound - 1)))

/-- The draw `w` is accepted: `r < T` (42_bounded.md R73). -/
def accepts (bound : Word32) (w : Word64) : Bool := decide ((candidate w).toNat < threshold bound.toNat)

/-- `r mod b` (42_bounded.md R73). -/
def residue (bound : Word32) (w : Word64) : Word64 := BitVec.ofNat 64 ((candidate w).toNat % bound.toNat)

/-- One draw of the rejection path (42_bounded.md R73): an accepted draw completes the command; a rejected one advances the
words and contributes nothing, and the command stays in the block for another draw. The loop has no bound (R76). -/
def rejectOnce (bound : Word32) (s : State) : State :=
  if accepts bound (draw (working s)).1 then
    complete (draw (working s)).2 (residue bound (draw (working s)).1) s
  else holdDraw (draw (working s)).2 s

/-- BOUNDED (42_bounded.md R70): the argument check first (R71), then the state check (60_exceptions.md R104), then the mask
path (R72) or one draw of the rejection path (R73). -/
def execBounded (bound : Word32) (s : State) : Outcome :=
  .next
    (if nonPositive bound then fail .invalidArgument s
     else requireSeeded s (if powerOfTwo bound then drawOnce (maskDraw bound) s else rejectOnce bound s))

end Sys2Proof.Machine
end

