-- ==== Sys2Proof/Machine/Float.lean ====
section
/-! DEFINITION. The floating-point converters: commands F64 and F32 (43_float.md). -/

namespace Sys2Proof.Machine

/-- The position of the most significant 1 bit of `m` among bits `n-1` to 0 (43_float.md R81, R84); 0 if there is none. -/
def topBit (m : Nat) : Nat → Nat
  | 0 => 0
  | n + 1 => if m.testBit n then n else topBit m n

/-- `f64bits` (43_float.md R81): the binary64 pattern of `m * 2^-53`. -/
def f64bits (m : BitVec 53) : Word64 :=
  let k := topBit m.toNat 53
  if m = 0 then 0
  else (0#1) ++ BitVec.ofNat 11 (970 + k) ++ BitVec.ofNat 52 (m.toNat <<< (52 - k))

/-- `f32bits` (43_float.md R84): the binary32 pattern of `m * 2^-24`. -/
def f32bits (m : BitVec 24) : Word32 :=
  let k := topBit m.toNat 24
  if m = 0 then 0
  else (0#1) ++ BitVec.ofNat 8 (103 + k) ++ BitVec.ofNat 23 (m.toNat <<< (23 - k))

/-- F64 (43_float.md R82): one draw, the top 53 bits of the raw output as a double. -/
def execF64 (s : State) : Outcome :=
  .next (requireSeeded s (drawOnce (fun w => f64bits (top53 w)) s))

/-- F32 (43_float.md R85): one draw, the top 24 bits of the raw output as a single in `result[31:0]`. -/
def execF32 (s : State) : Outcome :=
  .next (requireSeeded s (drawOnce (fun w => zext64 (f32bits (top24 w))) s))

end Sys2Proof.Machine
end

