-- ==== Sys2Proof/Machine/Seeding.lean ====
section
/-! DEFINITION. The mixer and the seed expansion: commands MIX and SEED (40_seeding.md). -/

namespace Sys2Proof.Machine

/-- `GOLDEN` (40_seeding.md R50). -/
def golden : Word64 := 0x9E3779B97F4A7C15
/-- `MUL1` (40_seeding.md R50). -/
def mul1 : Word64 := 0xBF58476D1CE4E5B9
/-- `MUL2` (40_seeding.md R50). -/
def mul2 : Word64 := 0x94D049BB133111EB
/-- `FALLBACK_S0` (40_seeding.md R50). -/
def fallbackS0 : Word64 := 0x9E3779B97F4A7C15
/-- `FALLBACK_S1` (40_seeding.md R50). -/
def fallbackS1 : Word64 := 0xDA3E39CB94B95BDB

/-- `mix` (40_seeding.md R51): the addition of `GOLDEN` is part of it (90_conflicts.md C1). -/
def mix (z : Word64) : Word64 :=
  let a := z + golden
  let b := (a ^^^ (a >>> 30)) * mul1
  let c := (b ^^^ (b >>> 27)) * mul2
  c ^^^ (c >>> 31)

/-- The zero guard of the seed expansion (40_seeding.md R54); it never fires (R56), and is kept as the hardware has it. -/
def guardZero (g : Gen) : Gen := if g = ⟨0, 0⟩ then ⟨fallbackS0, fallbackS1⟩ else g

/-- `expand` (40_seeding.md R54). -/
def expand (seed : Word64) : Gen :=
  let z0 := seed + golden
  guardZero ⟨mix z0, mix (z0 + golden)⟩

/-- SEED (40_seeding.md R55): replaces the state words by the expansion of the operand, sets `seeded`, answers OK:0. -/
def execSeed (seed : Word64) (s : State) : Outcome :=
  .next (complete (expand seed) 0 (markSeeded s))

/-- MIX (40_seeding.md R52): answers `mix(z)`; reads and writes no state. -/
def execMix (z : Word64) (s : State) : Outcome :=
  .next (respond .ok (mix z) s)

end Sys2Proof.Machine
end

