-- ==== Sys2Proof/Machine/Dispatch.lean ====
section
/-! DEFINITION. One arm per constructor of Instr. -/

namespace Sys2Proof.Machine

def exec (i : Instr) (s : State) : Host.Outcome State Fault Refusal :=
  match i with
  | .seed seed => Sys2Proof.Machine.execSeed seed s
  | .mix z => Sys2Proof.Machine.execMix z s
  | .next64 => Sys2Proof.Machine.execNext64 s
  | .bounded bound => Sys2Proof.Machine.execBounded bound s
  | .f64 => Sys2Proof.Machine.execF64 s
  | .f32 => Sys2Proof.Machine.execF32 s

end Sys2Proof.Machine
end

