-- ==== Sys2Proof/Machine/Cycle.lean ====
section
/-! DEFINITION. One step of the block: sample the ports, then reset, accept, execute, deliver or hold. -/

namespace Sys2Proof.Machine

/-- The command in the block is executed: decoded first (60_exceptions.md R104), an illegal word is answered ILLEGAL and
nothing else happens (R103). -/
def runCommand (w : CmdWord) (s : State) : Outcome :=
  match decode w with
  | .instr i => exec i s
  | .illegal _ => .next (fail .illegal s)

/-- What the block does in a step without reset, with the inputs `h`: with no command in it, it may accept one; with a
command and no response, it executes it; with a response, it delivers it or holds it (30_encoding.md R39, R40). -/
def runPorts (h : HostInput) (s : State) : Outcome :=
  match s.cmd with
  | none => .next (accept h.cmd s)
  | some w =>
    match s.rsp with
    | none => runCommand w s
    | some r => .next (deliver h.rspReady w r s)

/-- One step: `rst` wins over every other input (70_reset_and_hazards.md R120, R121; log entry 6). -/
def cycle (s : State) : Outcome :=
  if (hostNow s).rst then .next (resetBlock (hostLater s)) else runPorts (hostNow s) (hostLater s)

end Sys2Proof.Machine
end

