-- ==== Sys2Proof/Machine/Step.lean ====
section
/-! DEFINITION. The step of the machine, and where it finds its next command. -/

namespace Sys2Proof.Machine

/-- One step of the block with its host's inputs. -/
def step (s : State) : Host.Outcome State Fault Refusal := cycle s

/-- `s` with the command word `w` in the block, accepted and not yet executed, and a host that does nothing in this step, so
that the very next step executes it (log entry 7). -/
def State.withFetchWord (s : State) (nbits w : Nat) : State :=
  { s with cmd := some (BitVec.ofNat 72 (w % 2 ^ nbits)), work := none, rsp := none,
           host := HostInput.quiet :: s.host }

end Sys2Proof.Machine
end

