-- ==== Sys2Proof/Machine/Assembly.lean ====
section
/-! DEFINITION. The written form of commands, command words and responses (30_encoding.md R41), over lists of characters.
What R41 leaves open is log entry 8. -/

namespace Sys2Proof.Machine

/-- The value of a digit in base 10 or 16; hexadecimal letters of either case (log entry 8). -/
def digitValue (base : Nat) (c : Char) : Option Nat :=
  let v :=
    if '0'.toNat ≤ c.toNat ∧ c.toNat ≤ '9'.toNat then c.toNat - '0'.toNat
    else if 'A'.toNat ≤ c.toNat ∧ c.toNat ≤ 'F'.toNat then c.toNat - 'A'.toNat + 10
    else if 'a'.toNat ≤ c.toNat ∧ c.toNat ≤ 'f'.toNat then c.toNat - 'a'.toNat + 10
    else 16
  if v < base then some v else none

/-- The digits that follow `acc`, most significant first. -/
def numberFrom (base acc : Nat) : List Char → Option Nat
  | [] => some acc
  | c :: cs => match digitValue base c with
    | some d => numberFrom base (acc * base + d) cs
    | none => none

/-- A number of at least one digit. -/
def number (base : Nat) (cs : List Char) : Option Nat :=
  if cs.isEmpty then none else numberFrom base 0 cs

/-- The `n`-bit pattern of a number within a limit. -/
def patternWithin (n limit : Nat) (v : Option Nat) : Option (BitVec n) :=
  match v with
  | some k => if k ≤ limit then some (BitVec.ofNat n k) else none
  | none => none

/-- A negative decimal `-v` stands for `2^n - v` (30_encoding.md R41), for `v` up to `2^(n-1)` (log entry 8). -/
def negativePattern (n : Nat) (v : Option Nat) : Option (BitVec n) :=
  match v with
  | some k => if k ≤ 2 ^ (n - 1) then some (BitVec.ofNat n (2 ^ n - k)) else none
  | none => none

/-- An operand of `n` bits: hexadecimal after `0x`, negative decimal after `-`, else decimal up to `maxDecimal`
(30_encoding.md R41). -/
def operand (n maxDecimal : Nat) (t : List Char) : Option (BitVec n) :=
  match t with
  | '0' :: 'x' :: ds => patternWithin n (2 ^ n - 1) (number 16 ds)
  | '-' :: ds => negativePattern n (number 10 ds)
  | ds => patternWithin n maxDecimal (number 10 ds)

/-- The words of a line: `cur` is the word being read. -/
def wordsFrom (cur : List Char) : List Char → List (List Char)
  | [] => if cur.isEmpty then [] else [cur]
  | c :: cs =>
    if c = ' ' ∨ c = '\t' ∨ c = '\r' then
      (if cur.isEmpty then wordsFrom [] cs else cur :: wordsFrom [] cs)
    else wordsFrom (cur ++ [c]) cs

/-- The mnemonic of a command (30_encoding.md R32). -/
def mnemonicChars : Instr → List Char
  | .seed _ => ['S', 'E', 'E', 'D']
  | .mix _ => ['M', 'I', 'X']
  | .next64 => ['N', 'E', 'X', 'T', '6', '4']
  | .bounded _ => ['B', 'O', 'U', 'N', 'D', 'E', 'D']
  | .f64 => ['F', '6', '4']
  | .f32 => ['F', '3', '2']

/-- What one line of a program holds. -/
inductive AsmLine where
  | blank
  | command (i : Instr)
  | bad
deriving DecidableEq, Repr

/-- A command with an operand: SEED, MIX (a 64-bit value) or BOUNDED (a 32-bit signed value) (30_encoding.md R41). -/
def withOperand (m t : List Char) : AsmLine :=
  if m = mnemonicChars (.seed 0) then
    match operand 64 (2 ^ 64 - 1) t with
    | some v => .command (.seed v)
    | none => .bad
  else if m = mnemonicChars (.mix 0) then
    match operand 64 (2 ^ 64 - 1) t with
    | some v => .command (.mix v)
    | none => .bad
  else if m = mnemonicChars (.bounded 0) then
    match operand 32 (2 ^ 31 - 1) t with
    | some v => .command (.bounded v)
    | none => .bad
  else .bad

/-- A command without an operand: NEXT64, F64 or F32 (30_encoding.md R41). -/
def withoutOperand (m : List Char) : AsmLine :=
  if m = mnemonicChars .next64 then .command .next64
  else if m = mnemonicChars .f64 then .command .f64
  else if m = mnemonicChars .f32 then .command .f32
  else .bad

/-- One line: a command and its operand; `;` starts a comment (30_encoding.md R41). -/
def assembleLine (line : List Char) : AsmLine :=
  match wordsFrom [] (line.takeWhile (fun c => c != ';')) with
  | [] => .blank
  | [m] => withoutOperand m
  | [m, t] => withOperand m t
  | _ => .bad

/-- The lines of a text: `cur` is the line being read. -/
def linesFrom (cur : List Char) : List Char → List (List Char)
  | [] => [cur]
  | c :: cs => if c = '\n' then cur :: linesFrom [] cs else linesFrom (cur ++ [c]) cs

/-- The commands of the lines, absent if some line is bad. -/
def commandsOf : List (List Char) → Option (List Instr)
  | [] => some []
  | l :: ls => match assembleLine l, commandsOf ls with
    | .blank, some is => some is
    | .command i, some is => some (i :: is)
    | _, _ => none

/-- A program: one command per line (30_encoding.md R41). -/
def assemble (text : List Char) : Option (List Instr) := commandsOf (linesFrom [] text)

/-- A hexadecimal digit. -/
def hexDigit (d : Nat) : Char := if d < 10 then Char.ofNat (48 + d) else Char.ofNat (55 + d)

/-- The last `count` hexadecimal digits of `v`, most significant first. -/
def hexDigits : Nat → Nat → List Char
  | 0, _ => []
  | k + 1, v => hexDigit (v / 16 ^ k % 16) :: hexDigits k v

/-- A command written as its mnemonic and its operand in hexadecimal (30_encoding.md R41). -/
def instrText (i : Instr) : List Char :=
  match i with
  | .seed v => mnemonicChars i ++ ([' ', '0', 'x'] ++ hexDigits 16 v.toNat)
  | .mix z => mnemonicChars i ++ ([' ', '0', 'x'] ++ hexDigits 16 z.toNat)
  | .next64 => mnemonicChars i
  | .bounded b => mnemonicChars i ++ ([' ', '0', 'x'] ++ hexDigits 8 b.toNat)
  | .f64 => mnemonicChars i
  | .f32 => mnemonicChars i

/-- A command word: `0x` and 18 hexadecimal digits, `op` first (30_encoding.md R41). -/
def cmdText (w : CmdWord) : List Char := ['0', 'x'] ++ hexDigits 18 w.toNat

/-- The command word a text of 18 hexadecimal digits after `0x` stands for (30_encoding.md R41). -/
def cmdOfText (t : List Char) : Option CmdWord :=
  match t with
  | '0' :: 'x' :: ds => if ds.length = 18 then patternWithin 72 (2 ^ 72 - 1) (number 16 ds) else none
  | _ => none

/-- The name of a status (60_exceptions.md R100). -/
def statusChars : Status → List Char
  | .ok => ['O', 'K']
  | .invalidArgument => ['I', 'N', 'V', 'A', 'L', 'I', 'D', '_', 'A', 'R', 'G', 'U', 'M', 'E', 'N', 'T']
  | .unseeded => ['U', 'N', 'S', 'E', 'E', 'D', 'E', 'D']
  | .illegal => ['I', 'L', 'L', 'E', 'G', 'A', 'L']

/-- A response written `status:result` (30_encoding.md R41). -/
def rspText (r : Response) : List Char := statusChars r.status ++ ([':', '0', 'x'] ++ hexDigits 16 r.result.toNat)

/-- A response written as 17 hexadecimal digits, the first being the status (30_encoding.md R41). -/
def rspHexText (r : Response) : List Char :=
  ['0', 'x', hexDigit r.status.code.toNat, '_'] ++ hexDigits 16 r.result.toNat

end Sys2Proof.Machine
end

