-- ==== Sys2Proof/Machine/PseudoOps.lean ====
section
/-! DEFINITION. The source's public operations as the host performs them over the six commands (44_pseudo_ops.md,
30_encoding.md R42): each is a fixed list of commands and a pure function of their responses. -/

namespace Sys2Proof.Machine

/-- The public operations of the source (30_encoding.md R42). -/
inductive SourceOp where
  | new (seed : Word64)
  /-- `call` numbers the calls of `new_default`, each with a default seed of its own (44_pseudo_ops.md R92). -/
  | newDefault (call : Nat)
  | setSeed (seed : Word64)
  | nextInt64
  | nextInt32
  | nextBoundedInt32 (bound : Word32)
  | nextFloat64
  | nextFloat32
  | nextBool
  /-- `n` is the length of the buffer in bytes. -/
  | fillBytes (n : Nat)
deriving DecidableEq, Repr

/-- `ceil(n / 8)`, the number of draws of `fill_bytes` (44_pseudo_ops.md R96). -/
def fillDraws (n : Nat) : Nat := (n + 7) / 8

/-- The expansion of an operation into commands (30_encoding.md R42; 44_pseudo_ops.md R90 to R96). -/
def SourceOp.commands : SourceOp → List Instr
  | .new v => [.seed v]
  | .newDefault call => [.seed (Config.defaultSeed call)]
  | .setSeed v => [.seed v]
  | .nextInt64 => [.next64]
  | .nextInt32 => [.next64]
  | .nextBoundedInt32 b => [.bounded b]
  | .nextFloat64 => [.f64]
  | .nextFloat32 => [.f32]
  | .nextBool => [.next64]
  | .fillBytes n => List.replicate (fillDraws n) .next64

/-- `next_int64`: `sint_64(result)` (44_pseudo_ops.md R93). -/
def readInt64 (result : Word64) : Int := result.toInt

/-- `next_int32`: `sint_32(result[31:0])` (44_pseudo_ops.md R94); also how a BOUNDED result reads as `i32` (42_bounded.md R77). -/
def readInt32 (result : Word64) : Int := (trunc32 result).toInt

/-- `next_bool`: `result[0]` (44_pseudo_ops.md R95). -/
def readBool (result : Word64) : Bool := result.getLsbD 0

/-- Byte `j` of a raw output: `w[8j+7:8j]` (20_memory.md R22). -/
def byteOf (w : Word64) (j : Nat) : Byte := w.extractLsb' (8 * j) 8

/-- The buffer of `fill_bytes` (44_pseudo_ops.md R96): byte `8i + j` is byte `j` of the `i`-th raw output; the unused high
bytes of the last raw output are discarded. Where fewer than `fillDraws n` results came back (a reset in the middle of the
fill) the spec is silent on the buffer; the missing bytes are 0 here, DESIGN CHOICE (log entry 9), and `SourceOp.result`
returns no such buffer. -/
def fillStore (n : Nat) (ws : List Word64) : List Byte :=
  (List.range n).map (fun p => byteOf (ws.getD (p / 8) 0) (p % 8))

/-- What an operation returns to its caller; `bits64` and `bits32` are binary64 and binary32 patterns (43_float.md R81, R84). -/
inductive SourceValue where
  | nothing
  | int (v : Int)
  | bits64 (v : Word64)
  | bits32 (v : Word32)
  | bool (v : Bool)
  | bytes (v : List Byte)
deriving DecidableEq, Repr

/-- The value of an operation from the results of its commands (44_pseudo_ops.md R90 to R96; 30_encoding.md R37). Where a
response is missing (a reset abandons it, or a BOUNDED never answers) the spec gives no value; the missing result is read as 0
here, DESIGN CHOICE (log entry 9), and `SourceOp.result` returns no such value. -/
def SourceOp.value (op : SourceOp) (results : List Word64) : SourceValue :=
  match op with
  | .new _ => .nothing
  | .newDefault _ => .nothing
  | .setSeed _ => .nothing
  | .nextInt64 => .int (readInt64 (results.headD 0))
  | .nextInt32 => .int (readInt32 (results.headD 0))
  | .nextBoundedInt32 _ => .int (readInt32 (results.headD 0))
  | .nextFloat64 => .bits64 (results.headD 0)
  | .nextFloat32 => .bits32 (trunc32 (results.headD 0))
  | .nextBool => .bool (readBool (results.headD 0))
  | .fillBytes n => .bytes (fillStore n results)

/-- What the host makes of a status that is not OK (44_pseudo_ops.md R97): the source's single error kind, or a defect of
the host. -/
inductive HostError where
  | invalidArgument
  | hostDefect (status : Status)
deriving DecidableEq, Repr

/-- The mapping of statuses to the source's error model (44_pseudo_ops.md R97). -/
def hostError : Status → Option HostError
  | .ok => none
  | .invalidArgument => some .invalidArgument
  | .unseeded => some (.hostDefect .unseeded)
  | .illegal => some (.hostDefect .illegal)

/-- The outcome of an operation for its caller. -/
inductive SourceResult where
  | returned (v : SourceValue)
  | failed (e : HostError)
  /-- A response is missing: the operation has not returned. DESIGN CHOICE (log entry 9). -/
  | unanswered
deriving DecidableEq, Repr

/-- The first error among the responses, if any (44_pseudo_ops.md R97). -/
def firstError : List Response → Option HostError
  | [] => none
  | r :: rs => match hostError r.status with
    | some e => some e
    | none => firstError rs

/-- The outcome of an operation from the responses to its commands (44_pseudo_ops.md R97): the first error, else the value
once every command has its response. -/
def SourceOp.result (op : SourceOp) (responses : List Response) : SourceResult :=
  match firstError responses with
  | some e => .failed e
  | none =>
    if responses.length < op.commands.length then .unanswered
    else .returned (op.value (responses.map Response.result))

/-- The inputs of a host that presents `w` to an idle block, waits `rounds` steps while it is executed, and takes the
response (70_reset_and_hazards.md R129). -/
def transaction (w : CmdWord) (rounds : Nat) : List HostInput :=
  ⟨false, some w, false⟩ :: (List.replicate rounds HostInput.quiet ++ [⟨false, none, true⟩])

/-- The inputs of a host that issues these commands one after the other, each in one round of execution. -/
def hostScript (is : List Instr) : List HostInput := is.flatMap (fun i => transaction (encode i) 1)

end Sys2Proof.Machine
end

