-- ==== Sys2Proof/Safety.lean ====
section
/-! DEFINITION. The terms claims are stated in: runs of the machine, the draws of a generator, what an answer may be, and the
invariant of every run. -/

namespace Sys2Proof.Machine

/-- `n` steps lead from `s` to `t`. -/
def Runs : Nat → State → State → Prop
  | 0, s, t => s = t
  | n + 1, s, t => ∃ u, step s = .next u ∧ Runs n u t

/-- The words after `k` draws from `g` (41_generator.md R63). -/
def genAfter (g : Gen) (k : Nat) : Gen := advance^[k] g

/-- The raw output of the draw after `k` draws from `g` (41_generator.md R61, R63). -/
def rawAfter (g : Gen) (k : Nat) : Word64 := output (genAfter g k)

/-- The block executes the command word `w` in its next step: the word is in the block, unanswered, and the host does not
assert reset (30_encoding.md R39, R40). -/
def Executing (s : State) (w : CmdWord) : Prop :=
  s.cmd = some w ∧ s.rsp = none ∧ (hostNow s).rst = false

/-- No reset among the next `n` steps' inputs. -/
def NoReset (s : State) (n : Nat) : Prop := ∀ h ∈ s.host.take n, h.rst = false

/-- BOUNDED with this bound takes the rejection path (42_bounded.md R73). -/
def RejectionPath (b : Word32) : Prop := 0 < b.toInt ∧ ¬ ∃ k, b.toNat = 2 ^ k

/-- A word of a drawing command (60_exceptions.md R102). -/
def drawing : Instr → Bool
  | .seed _ => false
  | .mix _ => false
  | .next64 => true
  | .bounded _ => true
  | .f64 => true
  | .f32 => true

/-- The value of a binary64 pattern (43_float.md R81): +0.0, or a pattern with exponent field in 1 .. 2046. The spec states
no value for the others, and none is given here. -/
def binary64Value (p : Word64) : Option ℚ :=
  let sign := p.getLsbD 63
  let e := (p.extractLsb' 52 11).toNat
  let f := (p.extractLsb' 0 52).toNat
  if p = 0 then some 0
  else if 1 ≤ e ∧ e ≤ 2046 then
    some ((if sign then -1 else 1) * (1 + (f : ℚ) / 2 ^ 52) * (2 : ℚ) ^ ((e : ℤ) - 1023))
  else none

/-- The value of a binary32 pattern (43_float.md R84): +0.0, or a pattern with exponent field in 1 .. 254. -/
def binary32Value (p : Word32) : Option ℚ :=
  let sign := p.getLsbD 31
  let e := (p.extractLsb' 23 8).toNat
  let f := (p.extractLsb' 0 23).toNat
  if p = 0 then some 0
  else if 1 ≤ e ∧ e ≤ 254 then
    some ((if sign then -1 else 1) * (1 + (f : ℚ) / 2 ^ 23) * (2 : ℚ) ^ ((e : ℤ) - 127))
  else none

/-- What the result of an `OK` answer to a command may be (30_encoding.md R37; 42_bounded.md R77; 43_float.md R80, R83). -/
def OkResult : Decoded → Word64 → Prop
  | .illegal _, _ => False
  | .instr (.seed _), r => r = 0
  | .instr (.mix z), r => r = mix z
  | .instr .next64, _ => True
  | .instr (.bounded b), r => (r.toNat : Int) < b.toInt
  | .instr .f64, r => ∃ v, binary64Value r = some v ∧ 0 ≤ v ∧ v < 1
  | .instr .f32, r => ∃ p : Word32, r = zext64 p ∧ ∃ v, binary32Value p = some v ∧ 0 ≤ v ∧ v < 1

/-- What the response `r` to the command word `w` may be, whatever the state (30_encoding.md R31, R37; 60_exceptions.md R100
to R104): a status that is not OK carries result 0; ILLEGAL answers exactly the words that match no row;
INVALID_ARGUMENT exactly the BOUNDED words with a non-positive bound; UNSEEDED only drawing commands. -/
structure Answers (w : CmdWord) (r : Response) : Prop where
  zero_unless_ok : r.status ≠ .ok → r.result = 0
  illegal_iff : r.status = .illegal ↔ legalWord w = false
  invalid_iff : r.status = .invalidArgument ↔ ∃ b, decode w = .instr (.bounded b) ∧ b.toInt ≤ 0
  unseeded_draws : r.status = .unseeded → ∃ i, decode w = .instr i ∧ drawing i = true
  ok_result : r.status = .ok → OkResult (decode w) r.result

/-- The invariant of every run.
`from_seed` (40_seeding.md R57, 41_generator.md R65): a seeded block holds the expansion of some seed after some draws.
`nonzero` (10_state.md R11): a seeded block never holds (0, 0).
`rsp_answers`: a held response answers the command in the block (30_encoding.md R40).
`work_rejected` (42_bounded.md R73, R75): words held in `work` are those of a BOUNDED on the rejection path whose draws so far,
at least one, were all rejected, and `s0`, `s1` are still as the command found them.
`trace_answers`: every delivered pair is a command word and an answer to it (70_reset_and_hazards.md R128). -/
structure Inv (s : State) : Prop where
  from_seed : s.seeded = true → ∃ v n, s.gen = genAfter (expand v) n
  nonzero : s.seeded = true → s.gen ≠ ⟨0, 0⟩
  rsp_answers : ∀ r, s.rsp = some r → ∃ w, s.cmd = some w ∧ Answers w r
  work_rejected : ∀ g, s.work = some g →
    s.seeded = true ∧ s.rsp = none ∧
      ∃ b n, s.cmd = some (encode (.bounded b)) ∧ RejectionPath b ∧ 0 < n ∧ g = genAfter s.gen n ∧
        ∀ k < n, accepts b (rawAfter s.gen k) = false
  trace_answers : ∀ p ∈ s.trace, Answers p.1 p.2

/-- The block is idle: it can accept a command and holds no response (70_reset_and_hazards.md R128). -/
def Idle (s : State) : Prop := cmdReady s = true ∧ rspValid s = false

end Sys2Proof.Machine
end

