-- ==== Sys2Proof/Certificates/Slice0/Obligations.lean ====
section
/-! DEFINITION. The statements about the model, each from rules of the spec. Where a statement names `work := none`, it says
that nothing the block held for the command's execution survives its response (10_state.md R19). -/

open Sys2Proof Sys2Proof.Machine

/-- 70_reset_and_hazards.md R120, R121: whatever the block is doing, a step with `rst` leaves it unseeded and idle, delivers
nothing, and loses the command in flight with its draws; so does reset itself. What `s0` and `s1` hold then is the model's
choice (log entry 1) and nothing is said of it; that reset wins over a transfer in the same step is log entry 6. -/
def Obligations.ResetAbandonsWhateverRuns : Prop :=
  (State.reset.seeded = false ∧ Idle State.reset ∧ State.reset.work = none ∧ State.reset.trace = []) ∧
  ∀ s : State, (hostNow s).rst = true →
    ∃ t, step s = .next t ∧ t.seeded = false ∧ Idle t ∧ t.work = none ∧ t.trace = [] ∧ t.host = s.host.tail

/-- 40_seeding.md R54, R55: SEED replaces the state words by the expansion of its operand, whatever they were, sets `seeded`
and answers OK:0; the new pair is never (0, 0); nothing else changes. -/
def Obligations.SeedReplacesTheState : Prop :=
  ∀ (v : Word64) (s : State),
    let z0 := v + 0x9E3779B97F4A7C15
    let t0 := mix z0
    let t1 := mix (z0 + 0x9E3779B97F4A7C15)
    let e0 : Word64 := if t0 = 0 ∧ t1 = 0 then 0x9E3779B97F4A7C15 else t0
    let e1 : Word64 := if t0 = 0 ∧ t1 = 0 then 0xDA3E39CB94B95BDB else t1
    exec (.seed v) s =
        .next { s with s0 := e0, s1 := e1, seeded := true, work := none, rsp := some ⟨.ok, 0⟩ } ∧
      ¬ (e0 = 0 ∧ e1 = 0)

/-- 40_seeding.md R51, R52: MIX answers OK with the splitmix64 step of its operand, in every state, and changes nothing
else. -/
def Obligations.MixAnswersTheMixer : Prop :=
  ∀ (z : Word64) (s : State),
    let a := z + 0x9E3779B97F4A7C15
    let b := (a ^^^ (a >>> 30)) * 0xBF58476D1CE4E5B9
    let c := (b ^^^ (b >>> 27)) * 0x94D049BB133111EB
    exec (.mix z) s = .next { s with work := none, rsp := some ⟨.ok, c ^^^ (c >>> 31)⟩ }

/-- 41_generator.md R60, R61: on a seeded block NEXT64 answers OK with the wrapping sum of the two words as they were, and
the words step: the new `s0` is the old `s1`, the new `s1` is the transition's word; nothing else changes. -/
def Obligations.Next64AnswersTheSumAndSteps : Prop :=
  ∀ s : State, s.seeded = true →
    let x1 := s.s0 ^^^ (s.s0 <<< 23)
    let x2 := x1 ^^^ (x1 >>> 17)
    let x3 := x2 ^^^ s.s1 ^^^ (s.s1 >>> 26)
    exec .next64 s =
      .next { s with s0 := s.s1, s1 := x3, work := none, rsp := some ⟨.ok, BitVec.ofNat 64 (s.s0.toNat + s.s1.toNat)⟩ }

/-- 42_bounded.md R71, 60_exceptions.md R101: BOUNDED fails with INVALID_ARGUMENT exactly when the signed bound is not
positive (the pattern is 0 or has bit 31 set), seeded or not, with no draw and no other change; no other command ever
answers INVALID_ARGUMENT. -/
def Obligations.InvalidArgumentIsForNonPositiveBounds : Prop :=
  (∀ b : Word32, b.toInt ≤ 0 ↔ (b = 0 ∨ b.getLsbD 31 = true)) ∧
  (∀ (b : Word32) (s : State), b.toInt ≤ 0 →
    exec (.bounded b) s = .next { s with work := none, rsp := some ⟨.invalidArgument, 0⟩ }) ∧
  (∀ (i : Instr) (s t : State) (r : Response), s.rsp = none → exec i s = .next t → t.rsp = some r →
    r.status = .invalidArgument → ∃ b, i = .bounded b ∧ b.toInt ≤ 0)

/-- 42_bounded.md R72: the test `(b & (b - 1)) == 0` on a positive bound holds exactly for 2^k, k = 0 .. 30; for such a bound
BOUNDED on a seeded block makes exactly one draw and answers OK with the low k bits of the raw output; nothing else changes. -/
def Obligations.PowerOfTwoBoundsMaskOneDraw : Prop :=
  (∀ b : Word32, 0 < b.toInt → (b &&& (b - 1) = 0 ↔ ∃ k, k ≤ 30 ∧ b = BitVec.ofNat 32 (2 ^ k))) ∧
  (∀ (k : Nat) (s : State), k ≤ 30 → s.seeded = true →
    exec (.bounded (BitVec.ofNat 32 (2 ^ k))) s =
      .next { s with
        s0 := (genAfter s.gen 1).s0, s1 := (genAfter s.gen 1).s1, work := none,
        rsp := some ⟨.ok, BitVec.ofNat 64 ((rawAfter s.gen 0).toNat % 2 ^ k)⟩ })

/-- 42_bounded.md R73, one draw: with `r = w[31:1]` and `T = INT32_MAX - (INT32_MAX mod b)`, a draw with `r < T` completes the
command with `r mod b` and the stepped words; a draw with `r >= T` gives no response and leaves `s0`, `s1` and `seeded` alone.
That a rejected draw is kept in `work` until the command completes is the model's reading of 00_scope.md R8 (log entry 2). -/
def Obligations.RejectionPathAcceptsBelowThreshold : Prop :=
  ∀ (b : Word32) (s : State), RejectionPath b → s.seeded = true →
    let g := s.work.getD ⟨s.s0, s.s1⟩
    let r := (g.s0 + g.s1).toNat / 2 % 2 ^ 31
    let T := 2147483647 - 2147483647 % b.toNat
    (r < T → exec (.bounded b) s =
      .next { s with s0 := (advance g).s0, s1 := (advance g).s1, work := none,
                     rsp := some ⟨.ok, BitVec.ofNat 64 (r % b.toNat)⟩ }) ∧
    (T ≤ r → exec (.bounded b) s = .next { s with work := some (advance g) })

/-- 42_bounded.md R73, R75: on the rejection path, when the first `n` draws are rejected and the next is accepted, the block
gives no response and shows no change for `n` steps, and after step `n + 1` it holds OK with `r mod b` of the accepted draw
and the words advanced `n + 1` times; the rejected draws contribute nothing else. The host may do anything but reset. One
draw a step, and `s0`, `s1` in place until the command completes, are the model's choice (log entry 2). -/
def Obligations.BoundedAnswersFromFirstAcceptedDraw : Prop :=
  ∀ (b : Word32) (s : State) (n : Nat),
    let T := 2147483647 - 2147483647 % b.toNat
    let r := fun k => (rawAfter s.gen k).toNat / 2 % 2 ^ 31
    RejectionPath b → Executing s (encode (.bounded b)) → s.seeded = true → s.work = none → NoReset s (n + 1) →
    (∀ k < n, T ≤ r k) → r n < T →
    (∀ m ≤ n, ∃ u, Runs m s u ∧ u.rsp = none ∧ u.cmd = s.cmd ∧ u.gen = s.gen ∧ u.seeded = true ∧ u.trace = s.trace) ∧
    Runs (n + 1) s { s with
      s0 := (genAfter s.gen (n + 1)).s0, s1 := (genAfter s.gen (n + 1)).s1, work := none,
      rsp := some ⟨.ok, BitVec.ofNat 64 (r n % b.toNat)⟩, host := s.host.drop (n + 1) }

/-- 42_bounded.md R76, 70_reset_and_hazards.md R125, R127: with no reset to come, a BOUNDED on the rejection path is ever
answered if and only if some draw is accepted; no bound on the draws is assumed. -/
def Obligations.BoundedIsAnsweredIffSomeDrawIsAccepted : Prop :=
  ∀ (b : Word32) (s : State), RejectionPath b → Executing s (encode (.bounded b)) → s.seeded = true →
    s.work = none → (∀ h ∈ s.host, h.rst = false) →
    ((∃ n t, Runs n s t ∧ rspValid t = true) ↔
      ∃ k, (rawAfter s.gen k).toNat / 2 % 2 ^ 31 < 2147483647 - 2147483647 % b.toNat)

/-- 43_float.md R80: on a seeded block F64 answers OK with the binary64 pattern of `m * 2^-53`, `m = w[63:11]`, which lies in
[0, 1); it makes one draw and nothing else changes. -/
def Obligations.F64AnswersTopBitsAsDouble : Prop :=
  ∀ s : State, s.seeded = true →
    let m : Nat := (s.s0 + s.s1).toNat / 2 ^ 11
    ∃ p : Word64,
      exec .f64 s = .next { s with s0 := (genAfter s.gen 1).s0, s1 := (genAfter s.gen 1).s1, work := none,
                                   rsp := some ⟨.ok, p⟩ } ∧
      binary64Value p = some ((m : ℚ) / 2 ^ 53) ∧ m < 2 ^ 53

/-- 43_float.md R83: on a seeded block F32 answers OK with the binary32 pattern of `m * 2^-24`, `m = w[63:40]`, in
`result[31:0]` with `result[63:32] = 0`; the value lies in [0, 1); it makes one draw and nothing else changes. -/
def Obligations.F32AnswersTopBitsAsSingle : Prop :=
  ∀ s : State, s.seeded = true →
    let m : Nat := (s.s0 + s.s1).toNat / 2 ^ 40
    ∃ p : Word32,
      exec .f32 s = .next { s with s0 := (genAfter s.gen 1).s0, s1 := (genAfter s.gen 1).s1, work := none,
                                   rsp := some ⟨.ok, p.setWidth 64⟩ } ∧
      binary32Value p = some ((m : ℚ) / 2 ^ 24) ∧ m < 2 ^ 24

/-- 60_exceptions.md R102, R104: with `seeded = 0` the drawing commands NEXT64, F64, F32 and BOUNDED with a positive bound
answer UNSEEDED with result 0 and change nothing else; a seeded block, and SEED and MIX in any state, never answer
UNSEEDED. -/
def Obligations.UnseededBlockAnswersUnseeded : Prop :=
  (∀ (i : Instr) (s : State), s.seeded = false → drawing i = true → (∀ b, i = .bounded b → 0 < b.toInt) →
    exec i s = .next { s with work := none, rsp := some ⟨.unseeded, 0⟩ }) ∧
  (∀ (i : Instr) (s t : State) (r : Response), s.rsp = none → exec i s = .next t → t.rsp = some r →
    r.status = .unseeded → s.seeded = false ∧ drawing i = true)

/-- 30_encoding.md R34, R35; 60_exceptions.md R103: a word with a reserved opcode, a BOUNDED word with `arg[63:32]` not 0, and
a NEXT64, F64 or F32 word with `arg` not 0 are answered ILLEGAL with result 0, and nothing else changes. -/
def Obligations.MalformedWordsAnswerIllegal : Prop :=
  ∀ (s : State) (w : CmdWord), Executing s w →
    let op := w.extractLsb' 64 8
    (op ∉ ([0x01, 0x02, 0x10, 0x11, 0x12, 0x13] : List (BitVec 8)) ∨
      (op = 0x11 ∧ w.extractLsb' 32 32 ≠ 0) ∨
      (op ∈ ([0x10, 0x12, 0x13] : List (BitVec 8)) ∧ w.extractLsb' 0 64 ≠ 0)) →
    step s = .next { s with host := s.host.tail, work := none, rsp := some ⟨.illegal, 0⟩ }

/-- 30_encoding.md R38: the decoder reads a command from exactly the words that match a row of the command table, such a word
matches exactly one row, and it is the row of that command. -/
def Obligations.DecodeAcceptsExactlyTheTableRows : Prop :=
  ∀ w : CmdWord,
    (∀ i, decode w = .instr i →
      opcodeTable.filter (fun r => r.fits w) =
        opcodeTable.filter (fun r => r.mnemonic == i.mnemonic)) ∧
    ((∃ i, decode w = .instr i) ↔ (opcodeTable.filter (fun r => r.fits w)).length = 1) ∧
    ((∃ why, decode w = .illegal why) ↔ legalWord w = false)

/-- 30_encoding.md R30, R32, R33: for every command and every operand, decoding its word gives it back. -/
def Obligations.DecodeOfEncodeIsTheCommand : Prop :=
  ∀ i : Instr, decode (encode i) = .instr i ∧ decodeTableWord 72 (encode i).toNat = some i

/-- 30_encoding.md R30, R32, R35: a word that decodes is the word of the command it decodes to, so every command has exactly one word. -/
def Obligations.EncodeOfDecodeIsTheWord : Prop :=
  ∀ (w : CmdWord) (i : Instr), decode w = .instr i → encode i = w

/-- 30_encoding.md R32, R33, R41 and 95_test_vectors.md: words written out from the spec decode to the commands they stand
for (a sanity statement). -/
def Obligations.SpecWordsDecode : Prop :=
  decode 0x0100000000075BCD15 = .instr (.seed 123456789) ∧
  decode 0x020000000000000001 = .instr (.mix 1) ∧
  decode 0x100000000000000000 = .instr .next64 ∧
  decode 0x1100000000FFFFFFFB = .instr (.bounded (BitVec.ofInt 32 (-5))) ∧
  decode 0x120000000000000000 = .instr .f64 ∧
  decode 0x130000000000000000 = .instr .f32

/-- 30_encoding.md R38, R39: the step of a block with a command in it, unanswered and without reset, is `exec` of the command
its word decodes to, at the state with this step's inputs taken off the host's list (log entry 3); `withFetchWord` puts a word
in that place. -/
def Obligations.StepRunsTheDecodedCommand : Prop :=
  (∀ (s : State) (w : CmdWord) (i : Instr), Executing s w → decode w = .instr i →
    step s = exec i { s with host := s.host.tail }) ∧
  (∀ (s : State) (nbits w : Nat) (i : Instr), decodeTableWord nbits w = some i →
    step (s.withFetchWord nbits w) =
      exec i { s with cmd := some (BitVec.ofNat 72 (w % 2 ^ nbits)), work := none, rsp := none })

/-- The invariant holds at reset. -/
def Obligations.InvariantHoldsAtReset : Prop := Inv State.reset

/-- 10_state.md R11, R12; 40_seeding.md R57; 41_generator.md R65; 42_bounded.md R75, R77; 60_exceptions.md R100: every step
from a state that meets the invariant gives a state that meets it: the words stay those of a seed after some draws and never
(0, 0), a held response answers the command in the block, a BOUNDED in flight has had every draw rejected with the words it
found still in place (log entry 2), and every delivered pair is a legal answer to its command word. -/
def Obligations.EveryStepKeepsTheInvariant : Prop :=
  ∀ s t : State, Inv s → step s = .next t → Inv t

/-- 60_exceptions.md R105, R106: nothing stops the block: every step of every state answers a next state. -/
def Obligations.EveryStepAnswersANextState : Prop :=
  ∀ s : State, ∃ t, step s = .next t

/-- 10_state.md R20: no behaviour of the block depends on what `s0` and `s1` hold while it is unseeded: two runs whose first
states differ only there are equal but for those two words until the words are replaced, and equal from then on. For a run
through a reset, that the two ends are equal in those words too is the model's choice and no rule of the spec: every reset of
the model leaves the same two constants (log entry 1). -/
def Obligations.UnseededWordsNeverShow : Prop :=
  ∀ (n : Nat) (s t : State) (a b : Word64), s.seeded = false → Runs n s t →
    ∃ t', Runs n { s with s0 := a, s1 := b } t' ∧
      (t' = t ∨ (t.seeded = false ∧ t' = { t with s0 := a, s1 := b }))

/-- 44_pseudo_ops.md R98: the sequence of responses is a function of the sequence of command words since the last reset and of
nothing else: two runs from reset, with any host timing, that have answered the same command words have given the same
responses and are in the same generator state. (The words of an unseeded block are left out: log entry 1.) -/
def Obligations.ResponsesDependOnCommandWordsOnly : Prop :=
  ∀ (h₁ h₂ : List HostInput) (n₁ n₂ : Nat) (t₁ t₂ : State),
    Runs n₁ { State.reset with host := h₁ } t₁ → Runs n₂ { State.reset with host := h₂ } t₂ →
    t₁.cmd = none → t₂.cmd = none → t₁.trace.map Prod.fst = t₂.trace.map Prod.fst →
    t₁.trace = t₂.trace ∧ t₁.seeded = t₂.seeded ∧ (t₁.seeded = true → t₁.gen = t₂.gen)

/-- 40_seeding.md R53: the mixer is a bijection, and its only zero is 2^64 - GOLDEN. -/
def Obligations.MixIsABijection : Prop :=
  Function.Bijective mix ∧ ∀ z, mix z = 0 ↔ z = 0x61C8864680B583EB

/-- 40_seeding.md R56, R57: the zero guard of the seed expansion never fires, and different seeds give different states. -/
def Obligations.ExpandIsInjectiveAndItsGuardIsDead : Prop :=
  (∀ v : Word64, expand v = ⟨mix (v + golden), mix (v + golden + golden)⟩) ∧
  (∀ v : Word64, expand v ≠ ⟨fallbackS0, fallbackS1⟩) ∧ Function.Injective expand

/-- 41_generator.md R62, 10_state.md R12: the transition is a bijection on all pairs, and maps (0, 0) and no other pair to
(0, 0). -/
def Obligations.AdvanceIsABijection : Prop :=
  Function.Bijective advance ∧ ∀ g : Gen, advance g = ⟨0, 0⟩ ↔ g = ⟨0, 0⟩

/-- 42_bounded.md R74: for every bound on the rejection path the threshold is a positive multiple of it, above 2^30 and at most
2^31 - 1, it is the largest multiple not above INT32_MAX, at least 1 and fewer than 2^30 candidates are rejected, and each
residue has T / b accepted candidates. -/
def Obligations.ThresholdRemovesTheBias : Prop :=
  ∀ b : Word32, RejectionPath b →
    let T := threshold b.toNat
    b.toNat ∣ T ∧ 2 ^ 30 < T ∧ T ≤ 2 ^ 31 - 1 ∧ 2 ^ 31 - 1 < T + b.toNat ∧
    2 ^ 31 - T = 1 + (2 ^ 31 - 1) % b.toNat ∧ 2 ^ 31 - T < 2 ^ 30 ∧
    ∀ c < b.toNat, ((Finset.range T).filter (fun r => r % b.toNat = c)).card = T / b.toNat

/-- 42_bounded.md R77: whatever the state, an OK answer to BOUNDED is below the bound, and read as `i32` it is in 0 .. bound - 1. -/
def Obligations.BoundedResultsLieBelowTheBound : Prop :=
  ∀ (b : Word32) (s t : State) (r : Response), s.rsp = none → exec (.bounded b) s = .next t → t.rsp = some r →
    r.status = .ok →
    (r.result.toNat : Int) < b.toInt ∧ 0 ≤ readInt32 r.result ∧ readInt32 r.result < b.toInt ∧
      readInt32 r.result = r.result.toNat

/-- 30_encoding.md R40: after a command is accepted, `cmd_ready` is 0 until its response has been delivered (or reset): the
word stays in the block; a response is held unchanged until the host is ready, and delivered once, paired with its word. An
idle block accepts a presented word, and otherwise stays as it is. R39: a held response is delivered in the step in which the
host is ready, whatever the command was. Separate steps and the list of inputs are log entries 7 and 3, `trace` is log
entry 4. -/
def Obligations.OneCommandAtATimeAtThePorts : Prop :=
  (∀ (s : State) (w : CmdWord), (hostNow s).rst = false → cmdReady s = true → (hostNow s).cmd = some w →
    ∃ t, step s = .next t ∧ t.cmd = some w ∧ t.rsp = none ∧ cmdReady t = false ∧ t.gen = s.gen ∧
      t.seeded = s.seeded ∧ t.trace = s.trace) ∧
  (∀ s : State, (hostNow s).rst = false → cmdReady s = true → (hostNow s).cmd = none →
    step s = .next { s with host := s.host.tail }) ∧
  (∀ (s t : State) (w : CmdWord), (hostNow s).rst = false → s.cmd = some w → step s = .next t →
    (t.cmd = some w ∧ cmdReady t = false ∧ t.trace = s.trace) ∨
    (∃ r, s.rsp = some r ∧ (hostNow s).rspReady = true ∧ Idle t ∧ t.trace = s.trace ++ [(w, r)])) ∧
  (∀ (s : State) (w : CmdWord) (r : Response), (hostNow s).rst = false → s.cmd = some w → s.rsp = some r →
    (hostNow s).rspReady = false → step s = .next { s with host := s.host.tail }) ∧
  (∀ (s : State) (w : CmdWord) (r : Response), (hostNow s).rst = false → s.cmd = some w → s.rsp = some r →
    (hostNow s).rspReady = true →
    step s = .next { s with host := s.host.tail, cmd := none, work := none, rsp := none,
                            trace := s.trace ++ [(w, r)] })

/-- 10_state.md R10, R13; 70_reset_and_hazards.md R129: without reset, `s0`, `s1` and `seeded` change only in a step that answers
a command OK: a SEED, which sets `seeded`, or a drawing command on a seeded block, which leaves `seeded` set and the words
advanced once from where its last draw found them (log entry 2). -/
def Obligations.WordsChangeOnlyWhenACommandCompletes : Prop :=
  ∀ s t : State, (hostNow s).rst = false → step s = .next t → (t.gen ≠ s.gen ∨ t.seeded ≠ s.seeded) →
    ∃ w i v, Executing s w ∧ decode w = .instr i ∧ t.rsp = some ⟨.ok, v⟩ ∧ t.seeded = true ∧
      ((∃ seed, i = .seed seed ∧ t.gen = expand seed) ∨
        (drawing i = true ∧ s.seeded = true ∧
          (t.gen = genAfter s.gen 1 ∨ ∃ b g, i = .bounded b ∧ s.work = some g ∧ t.gen = genAfter g 1)))

/-- 60_exceptions.md R105: a command answered with any status but OK has no effect but its response, whose result is 0. -/
def Obligations.ErrorsHaveNoEffect : Prop :=
  ∀ (s t : State) (w : CmdWord) (r : Response), Executing s w → step s = .next t → t.rsp = some r → r.status ≠ .ok →
    r.result = 0 ∧ t = { s with host := s.host.tail, work := none, rsp := some r }

/-- The frame of every command: `exec` never touches the command in the block, the host's inputs or the delivered pairs; only
SEED writes `seeded`; MIX leaves the words alone, and so does a drawing command on an unseeded block (10_state.md R10, R13). -/
def Obligations.CommandsTouchOnlyTheirOwnState : Prop :=
  ∀ (i : Instr) (s t : State), exec i s = .next t →
    t.cmd = s.cmd ∧ t.host = s.host ∧ t.trace = s.trace ∧
    (t.seeded = s.seeded ∨ ∃ v, i = .seed v) ∧
    ((∃ z, i = .mix z) ∨ (drawing i = true ∧ s.seeded = false) → t.s0 = s.s0 ∧ t.s1 = s.s1) ∧
    (t.work = none ∨ (t.rsp = s.rsp ∧ ∃ b, i = .bounded b))

/-- 30_encoding.md R31, 70_reset_and_hazards.md R127: every command word but a BOUNDED on the rejection path, legal or not, is
answered and delivered exactly once when the host presents it to an idle block, waits at least one step and takes the
response; the pair delivered is what `exec`, or the ILLEGAL answer, gives. R127 says only that the response comes eventually:
that one step of execution suffices and that the block is idle after exactly `rounds + 2` steps is the model's choice (log
entry 7). -/
def Obligations.EveryOtherCommandIsAnsweredOnce : Prop :=
  ∀ (s : State) (w : CmdWord) (rounds : Nat) (rest : List HostInput), Idle s → 1 ≤ rounds →
    s.host = transaction w rounds ++ rest →
    (∀ b, decode w = .instr (.bounded b) → ¬ RejectionPath b) →
    ∃ t r, Runs (rounds + 2) s t ∧ Idle t ∧ t.host = rest ∧ t.trace = s.trace ++ [(w, r)] ∧ Answers w r ∧
      (∀ i, decode w = .instr i → ∃ u, exec i { s with cmd := some w, work := none } = .next u ∧
        u.rsp = some r ∧ t.gen = u.gen ∧ t.seeded = u.seeded) ∧
      ((∃ why, decode w = .illegal why) → t.gen = s.gen ∧ t.seeded = s.seeded)

/-- 44_pseudo_ops.md R96: `fill_bytes` of `n` bytes on a seeded idle block issues `ceil(n/8)` NEXT64 commands, draws that many
times, and stores the little-endian bytes of the raw outputs cut to `n`. Three steps a command is log entry 7. -/
def Obligations.FillBytesStoresLittleEndianDraws : Prop :=
  ∀ (s : State) (n : Nat), Idle s → s.seeded = true → s.host = hostScript (SourceOp.fillBytes n).commands →
    ∃ t rs bs, Runs (3 * ((n + 7) / 8)) s t ∧ Idle t ∧ t.gen = genAfter s.gen ((n + 7) / 8) ∧
      t.seeded = true ∧ t.trace = s.trace ++ rs ∧ rs.map Prod.fst = List.replicate ((n + 7) / 8) (encode .next64) ∧
      (SourceOp.fillBytes n).result (rs.map Prod.snd) = .returned (.bytes bs) ∧ bs.length = n ∧
      ∀ p < n, bs[p]? = some (BitVec.ofNat 8 ((rawAfter s.gen (p / 8)).toNat / 2 ^ (8 * (p % 8))))

/-- 44_pseudo_ops.md R93, R94, R95: `next_int64`, `next_int32` and `next_bool` each take one NEXT64 and read its result as two's
complement of 64 bits, as two's complement of the low 32 bits, and as its bit 0. -/
def Obligations.RawOutputsReadAsIntegersAndBool : Prop :=
  SourceOp.nextInt64.commands = [.next64] ∧ SourceOp.nextInt32.commands = [.next64] ∧
  SourceOp.nextBool.commands = [.next64] ∧
  ∀ w : Word64,
    SourceOp.nextInt64.result [⟨.ok, w⟩] =
      .returned (.int (if w.toNat < 2 ^ 63 then (w.toNat : Int) else (w.toNat : Int) - 2 ^ 64)) ∧
    SourceOp.nextInt32.result [⟨.ok, w⟩] =
      .returned (.int (if w.toNat % 2 ^ 32 < 2 ^ 31 then ((w.toNat % 2 ^ 32 : Nat) : Int)
        else ((w.toNat % 2 ^ 32 : Nat) : Int) - 2 ^ 32)) ∧
    SourceOp.nextBool.result [⟨.ok, w⟩] = .returned (.bool (decide (w.toNat % 2 = 1)))

/-- 44_pseudo_ops.md R97: on a seeded block the host's only error is InvalidArgument, reported exactly for a BOUNDED whose bound
is not positive; UNSEEDED and ILLEGAL cannot occur. -/
def Obligations.SeededHostSeesOnlyInvalidArgument : Prop :=
  ∀ (i : Instr) (s t : State) (r : Response), s.seeded = true → Executing s (encode i) → step s = .next t →
    t.rsp = some r →
    (hostError r.status = none ∧ ¬ (∃ b, i = .bounded b ∧ b.toInt ≤ 0)) ∨
    (hostError r.status = some .invalidArgument ∧ ∃ b, i = .bounded b ∧ b.toInt ≤ 0)

/-- 30_encoding.md R41: a command written as its mnemonic and operand reads back as that command, also with a comment after it,
and a command word written as 18 hexadecimal digits reads back as that word. -/
def Obligations.WrittenFormsReadBack : Prop :=
  (∀ i : Instr, assembleLine (instrText i) = .command i) ∧
  (∀ (i : Instr) (comment : List Char), assembleLine (instrText i ++ (' ' :: ';' :: comment)) = .command i) ∧
  (∀ w : CmdWord, (cmdText w).length = 20 ∧ cmdOfText (cmdText w) = some w)

/-- 30_encoding.md R41: a negative decimal operand `-v` stands for 2^64 - v in SEED and MIX and for 2^32 - v in `arg[31:0]` of
BOUNDED (for v up to half the range: log entry 8). -/
def Obligations.NegativeOperandsAreTwosComplement : Prop :=
  ∀ (ds : List Char) (v : Nat), number 10 ds = some v →
    (v ≤ 2 ^ 63 →
      assembleLine (['S', 'E', 'E', 'D', ' ', '-'] ++ ds) = .command (.seed (BitVec.ofNat 64 (2 ^ 64 - v))) ∧
      assembleLine (['M', 'I', 'X', ' ', '-'] ++ ds) = .command (.mix (BitVec.ofNat 64 (2 ^ 64 - v)))) ∧
    (v ≤ 2 ^ 31 →
      assembleLine (['B', 'O', 'U', 'N', 'D', 'E', 'D', ' ', '-'] ++ ds) =
        .command (.bounded (BitVec.ofNat 32 (2 ^ 32 - v))))

/-- 30_encoding.md R31, 60_exceptions.md R100: the response word carries the status code (0, 1, 2, 3) in bits 65:64 and the
result in bits 63:0, and is read back from them. -/
def Obligations.ResponseWordCarriesStatusAndResult : Prop :=
  Status.ok.code.toNat = 0 ∧ Status.invalidArgument.code.toNat = 1 ∧ Status.unseeded.code.toNat = 2 ∧
  Status.illegal.code.toNat = 3 ∧
  ∀ r : Response, r.word.extractLsb' 64 2 = r.status.code ∧ r.word.extractLsb' 0 64 = r.result ∧
    r.word.toNat = r.status.code.toNat * 2 ^ 64 + r.result.toNat ∧ Response.ofWord r.word = r

/-- 60_exceptions.md R104: the first check that fails gives the status, whatever the later checks would say: decoding
(ILLEGAL), then the argument (INVALID_ARGUMENT), then the state (UNSEEDED); when none fails, no error is answered. -/
def Obligations.FirstFailedCheckGivesTheStatus : Prop :=
  ∀ (s : State) (w : CmdWord), Executing s w →
    (legalWord w = false → ∃ t, step s = .next t ∧ t.rsp = some ⟨.illegal, 0⟩) ∧
    (∀ i, decode w = .instr i →
      legalWord w = true ∧
      ((∃ b, i = .bounded b ∧ b.toInt ≤ 0) → ∃ t, step s = .next t ∧ t.rsp = some ⟨.invalidArgument, 0⟩) ∧
      (¬ (∃ b, i = .bounded b ∧ b.toInt ≤ 0) → drawing i = true → s.seeded = false →
        ∃ t, step s = .next t ∧ t.rsp = some ⟨.unseeded, 0⟩) ∧
      (¬ (∃ b, i = .bounded b ∧ b.toInt ≤ 0) → (drawing i = true → s.seeded = true) →
        ∃ t, step s = .next t ∧ ∀ r, t.rsp = some r → r.status = .ok))

/-- 43_float.md R81, R84: the patterns of the converters: +0.0 for 0, and otherwise sign 0, the biased exponent `970 + k`
(`103 + k`) and the bits of `m` below its leading 1, left-aligned; the pattern denotes `m * 2^-53` (`m * 2^-24`) exactly. -/
def Obligations.FloatPatternsHoldTheStatedFields : Prop :=
  (∀ m : BitVec 53, binary64Value (f64bits m) = some ((m.toNat : ℚ) / 2 ^ 53) ∧ (m = 0 → f64bits m = 0) ∧
    ∀ k, 2 ^ k ≤ m.toNat → m.toNat < 2 ^ (k + 1) →
      (f64bits m).toNat = (970 + k) * 2 ^ 52 + m.toNat * 2 ^ (52 - k) % 2 ^ 52) ∧
  (∀ m : BitVec 24, binary32Value (f32bits m) = some ((m.toNat : ℚ) / 2 ^ 24) ∧ (m = 0 → f32bits m = 0) ∧
    ∀ k, 2 ^ k ≤ m.toNat → m.toNat < 2 ^ (k + 1) →
      (f32bits m).toNat = (103 + k) * 2 ^ 23 + m.toNat * 2 ^ (23 - k) % 2 ^ 23)

/-- 43_float.md R86: in one and the same seeded state, F64 and F32 answer the patterns of the raw output NEXT64 would have
answered, and leave the same words. -/
def Obligations.ConvertersReadTheRawOutputOfNext64 : Prop :=
  ∀ s : State, s.seeded = true →
    ∃ (w : Word64) (t u v : State),
      exec .next64 s = .next t ∧ t.rsp = some ⟨.ok, w⟩ ∧
      exec .f64 s = .next u ∧ u.rsp = some ⟨.ok, f64bits (w.extractLsb' 11 53)⟩ ∧
      exec .f32 s = .next v ∧ v.rsp = some ⟨.ok, (f32bits (w.extractLsb' 40 24)).setWidth 64⟩ ∧
      u.gen = t.gen ∧ v.gen = t.gen
end

