-- ==== Sys2Proof/Laws/Decode.lean ====
section
/-! SUPPORT. The fields of a command word built from an opcode and an operand, and what the decoder can answer. -/

namespace Sys2Proof

/-- A command word as its two fields (30_encoding.md R30). -/
def cmdWord (op : BitVec 8) (arg : Word64) : CmdWord := op ++ arg

theorem getLsbD_cmdWord (op : BitVec 8) (arg : Word64) (k : Nat) :
    (cmdWord op arg).getLsbD k = if k < 64 then arg.getLsbD k else op.getLsbD (k - 64) :=
  BitVec.getLsbD_append

theorem opField_cmdWord (op : BitVec 8) (arg : Word64) : opField (cmdWord op arg) = op := by
  apply BitVec.eq_of_getLsbD_eq
  intro k hk
  have h64 : ¬ 64 + k < 64 := by omega
  rw [opField, BitVec.getLsbD_extractLsb', getLsbD_cmdWord, if_neg h64]
  simp [hk]

theorem argField_cmdWord (op : BitVec 8) (arg : Word64) : argField (cmdWord op arg) = arg := by
  apply BitVec.eq_of_getLsbD_eq
  intro k hk
  rw [argField, BitVec.getLsbD_extractLsb', getLsbD_cmdWord, if_pos (by omega)]
  simp [hk]

theorem encode_eq_cmdWord (i : Instr) : encode i = cmdWord i.opcode i.arg := rfl

/-- Every word is its two fields. -/
theorem cmdWord_fields (w : CmdWord) : cmdWord (opField w) (argField w) = w := by
  apply BitVec.eq_of_getLsbD_eq
  intro k hk
  rw [getLsbD_cmdWord]
  simp only [opField, argField, BitVec.getLsbD_extractLsb']
  by_cases h : k < 64
  · simp [h]
  · have h8 : k - 64 < 8 := by omega
    have h64 : 64 + (k - 64) = k := by omega
    simp [h, h8, h64]

theorem argHigh_eq (w : CmdWord) : argHigh w = (argField w).extractLsb' 32 32 := by
  apply BitVec.eq_of_getLsbD_eq
  intro k hk
  simp [argHigh, argField, hk]

theorem argLow_eq (w : CmdWord) : argLow w = (argField w).extractLsb' 0 32 := by
  apply BitVec.eq_of_getLsbD_eq
  intro k hk
  simp [argLow, argField, hk]

/-- Decoding a format N word answers the command exactly when the operand is 0. -/
theorem decodeN_cases (w : CmdWord) (i : Instr) :
    (argField w = 0 ∧ decodeN w i = .instr i) ∨
      (argField w ≠ 0 ∧ decodeN w i = .illegal (.reservedOperand (opField w))) := by
  unfold decodeN
  split
  · exact .inl ⟨‹_›, rfl⟩
  · exact .inr ⟨‹_›, rfl⟩

/-- Decoding a format B word answers the command exactly when `arg[63:32]` is 0. -/
theorem decodeB_cases (w : CmdWord) :
    (argHigh w = 0 ∧ decodeB w = .instr (.bounded (argLow w))) ∨
      (argHigh w ≠ 0 ∧ decodeB w = .illegal (.reservedOperand (opField w))) := by
  unfold decodeB
  split
  · exact .inl ⟨‹_›, rfl⟩
  · exact .inr ⟨‹_›, rfl⟩

end Sys2Proof
end

