-- ==== Sys2Proof/Laws/State.lean ====
section
/-! SUPPORT. What each update of the state leaves in each field; every later proof cites these and unfolds no record.
Their proofs are written (rfl), in brackets, so that simp does not use them by definitional unfolding: comparing two states
word by word would unfold `mix` or `advance` down to natural numbers, which takes minutes. -/

namespace Sys2Proof.Machine

@[simp] theorem respond_s0 (st : Status) (v : Word64) (s : State) : (respond st v s).s0 = s.s0 := (rfl)
@[simp] theorem respond_s1 (st : Status) (v : Word64) (s : State) : (respond st v s).s1 = s.s1 := (rfl)
@[simp] theorem respond_seeded (st : Status) (v : Word64) (s : State) : (respond st v s).seeded = s.seeded := (rfl)
@[simp] theorem respond_cmd (st : Status) (v : Word64) (s : State) : (respond st v s).cmd = s.cmd := (rfl)
@[simp] theorem respond_work (st : Status) (v : Word64) (s : State) : (respond st v s).work = none := (rfl)
@[simp] theorem respond_rsp (st : Status) (v : Word64) (s : State) : (respond st v s).rsp = some ⟨st, v⟩ := (rfl)
@[simp] theorem respond_host (st : Status) (v : Word64) (s : State) : (respond st v s).host = s.host := (rfl)
@[simp] theorem respond_trace (st : Status) (v : Word64) (s : State) : (respond st v s).trace = s.trace := (rfl)
@[simp] theorem respond_gen (st : Status) (v : Word64) (s : State) : (respond st v s).gen = s.gen := (rfl)

@[simp] theorem fail_s0 (st : Status) (s : State) : (fail st s).s0 = s.s0 := (rfl)
@[simp] theorem fail_s1 (st : Status) (s : State) : (fail st s).s1 = s.s1 := (rfl)
@[simp] theorem fail_seeded (st : Status) (s : State) : (fail st s).seeded = s.seeded := (rfl)
@[simp] theorem fail_cmd (st : Status) (s : State) : (fail st s).cmd = s.cmd := (rfl)
@[simp] theorem fail_work (st : Status) (s : State) : (fail st s).work = none := (rfl)
@[simp] theorem fail_rsp (st : Status) (s : State) : (fail st s).rsp = some ⟨st, 0⟩ := (rfl)
@[simp] theorem fail_host (st : Status) (s : State) : (fail st s).host = s.host := (rfl)
@[simp] theorem fail_trace (st : Status) (s : State) : (fail st s).trace = s.trace := (rfl)
@[simp] theorem fail_gen (st : Status) (s : State) : (fail st s).gen = s.gen := (rfl)

@[simp] theorem complete_s0 (g : Gen) (v : Word64) (s : State) : (complete g v s).s0 = g.s0 := (rfl)
@[simp] theorem complete_s1 (g : Gen) (v : Word64) (s : State) : (complete g v s).s1 = g.s1 := (rfl)
@[simp] theorem complete_seeded (g : Gen) (v : Word64) (s : State) : (complete g v s).seeded = s.seeded := (rfl)
@[simp] theorem complete_cmd (g : Gen) (v : Word64) (s : State) : (complete g v s).cmd = s.cmd := (rfl)
@[simp] theorem complete_work (g : Gen) (v : Word64) (s : State) : (complete g v s).work = none := (rfl)
@[simp] theorem complete_rsp (g : Gen) (v : Word64) (s : State) : (complete g v s).rsp = some ⟨.ok, v⟩ := (rfl)
@[simp] theorem complete_host (g : Gen) (v : Word64) (s : State) : (complete g v s).host = s.host := (rfl)
@[simp] theorem complete_trace (g : Gen) (v : Word64) (s : State) : (complete g v s).trace = s.trace := (rfl)
@[simp] theorem complete_gen (g : Gen) (v : Word64) (s : State) : (complete g v s).gen = g := (rfl)

@[simp] theorem holdDraw_s0 (g : Gen) (s : State) : (holdDraw g s).s0 = s.s0 := (rfl)
@[simp] theorem holdDraw_s1 (g : Gen) (s : State) : (holdDraw g s).s1 = s.s1 := (rfl)
@[simp] theorem holdDraw_seeded (g : Gen) (s : State) : (holdDraw g s).seeded = s.seeded := (rfl)
@[simp] theorem holdDraw_cmd (g : Gen) (s : State) : (holdDraw g s).cmd = s.cmd := (rfl)
@[simp] theorem holdDraw_work (g : Gen) (s : State) : (holdDraw g s).work = some g := (rfl)
@[simp] theorem holdDraw_rsp (g : Gen) (s : State) : (holdDraw g s).rsp = s.rsp := (rfl)
@[simp] theorem holdDraw_host (g : Gen) (s : State) : (holdDraw g s).host = s.host := (rfl)
@[simp] theorem holdDraw_trace (g : Gen) (s : State) : (holdDraw g s).trace = s.trace := (rfl)
@[simp] theorem holdDraw_gen (g : Gen) (s : State) : (holdDraw g s).gen = s.gen := (rfl)

@[simp] theorem markSeeded_s0 (s : State) : (markSeeded s).s0 = s.s0 := (rfl)
@[simp] theorem markSeeded_s1 (s : State) : (markSeeded s).s1 = s.s1 := (rfl)
@[simp] theorem markSeeded_seeded (s : State) : (markSeeded s).seeded = true := (rfl)
@[simp] theorem markSeeded_cmd (s : State) : (markSeeded s).cmd = s.cmd := (rfl)
@[simp] theorem markSeeded_work (s : State) : (markSeeded s).work = s.work := (rfl)
@[simp] theorem markSeeded_rsp (s : State) : (markSeeded s).rsp = s.rsp := (rfl)
@[simp] theorem markSeeded_host (s : State) : (markSeeded s).host = s.host := (rfl)
@[simp] theorem markSeeded_trace (s : State) : (markSeeded s).trace = s.trace := (rfl)
@[simp] theorem markSeeded_gen (s : State) : (markSeeded s).gen = s.gen := (rfl)

@[simp] theorem hostLater_s0 (s : State) : (hostLater s).s0 = s.s0 := (rfl)
@[simp] theorem hostLater_s1 (s : State) : (hostLater s).s1 = s.s1 := (rfl)
@[simp] theorem hostLater_seeded (s : State) : (hostLater s).seeded = s.seeded := (rfl)
@[simp] theorem hostLater_cmd (s : State) : (hostLater s).cmd = s.cmd := (rfl)
@[simp] theorem hostLater_work (s : State) : (hostLater s).work = s.work := (rfl)
@[simp] theorem hostLater_rsp (s : State) : (hostLater s).rsp = s.rsp := (rfl)
@[simp] theorem hostLater_host (s : State) : (hostLater s).host = s.host.tail := (rfl)
@[simp] theorem hostLater_trace (s : State) : (hostLater s).trace = s.trace := (rfl)
@[simp] theorem hostLater_gen (s : State) : (hostLater s).gen = s.gen := (rfl)

@[simp] theorem resetBlock_s0 (s : State) : (resetBlock s).s0 = Config.resetS0 := (rfl)
@[simp] theorem resetBlock_s1 (s : State) : (resetBlock s).s1 = Config.resetS1 := (rfl)
@[simp] theorem resetBlock_seeded (s : State) : (resetBlock s).seeded = false := (rfl)
@[simp] theorem resetBlock_cmd (s : State) : (resetBlock s).cmd = none := (rfl)
@[simp] theorem resetBlock_work (s : State) : (resetBlock s).work = none := (rfl)
@[simp] theorem resetBlock_rsp (s : State) : (resetBlock s).rsp = none := (rfl)
@[simp] theorem resetBlock_host (s : State) : (resetBlock s).host = s.host := (rfl)
@[simp] theorem resetBlock_trace (s : State) : (resetBlock s).trace = [] := (rfl)

/-- The host's inputs play no part in what a command does (log entry 3). -/
theorem respond_withHost (st : Status) (v : Word64) (s : State) (h : List HostInput) :
    respond st v { s with host := h } = { respond st v s with host := h } := (rfl)
theorem fail_withHost (st : Status) (s : State) (h : List HostInput) :
    fail st { s with host := h } = { fail st s with host := h } := (rfl)
theorem complete_withHost (g : Gen) (v : Word64) (s : State) (h : List HostInput) :
    complete g v { s with host := h } = { complete g v s with host := h } := (rfl)
theorem holdDraw_withHost (g : Gen) (s : State) (h : List HostInput) :
    holdDraw g { s with host := h } = { holdDraw g s with host := h } := (rfl)
theorem markSeeded_withHost (s : State) (h : List HostInput) :
    markSeeded { s with host := h } = { markSeeded s with host := h } := (rfl)
theorem gen_withHost (s : State) (h : List HostInput) : ({ s with host := h } : State).gen = s.gen := (rfl)
theorem working_withHost (s : State) (h : List HostInput) : working { s with host := h } = working s := (rfl)
theorem requireSeeded_withHost (s t : State) (h : List HostInput) :
    requireSeeded { s with host := h } { t with host := h } = { requireSeeded s t with host := h } := by
  unfold requireSeeded
  rw [fail_withHost]
  cases hs : s.seeded <;> rfl

@[simp] theorem gen_s0 (s : State) : s.gen.s0 = s.s0 := (rfl)
@[simp] theorem gen_s1 (s : State) : s.gen.s1 = s.s1 := (rfl)

@[simp] theorem hostNow_of_nil (s : State) (h : s.host = []) : hostNow s = HostInput.quiet := by
  simp [hostNow, h]

@[simp] theorem quiet_rst : HostInput.quiet.rst = false := (rfl)
@[simp] theorem quiet_cmd : HostInput.quiet.cmd = none := (rfl)
@[simp] theorem quiet_rspReady : HostInput.quiet.rspReady = false := (rfl)

end Sys2Proof.Machine
end

