-- ==== Sys2Proof/Laws/Ops.lean ====
section
/-! SUPPORT. One lemma per shared operation that says everything it can do. -/

namespace Sys2Proof.Machine

theorem hostNow_cons (s : State) (h : HostInput) (hs : List HostInput) (e : s.host = h :: hs) : hostNow s = h := by
  simp [hostNow, e]

/-- This step's inputs are the first record, or those of a host that does nothing. -/
theorem hostNow_mem (s : State) : hostNow s = HostInput.quiet ∨ hostNow s ∈ s.host := by
  unfold hostNow
  cases s.host with
  | nil => exact .inl rfl
  | cons h hs => exact .inr (by simp)

@[simp] theorem working_of_none (s : State) (h : s.work = none) : working s = s.gen := by simp [working, h]

theorem working_of_some (s : State) (g : Gen) (h : s.work = some g) : working s = g := by simp [working, h]

@[simp] theorem working_hostLater (s : State) : working (hostLater s) = working s := rfl

@[simp] theorem requireSeeded_of_seeded (s t : State) (h : s.seeded = true) : requireSeeded s t = t := by
  simp [requireSeeded, h]

@[simp] theorem requireSeeded_of_unseeded (s t : State) (h : s.seeded = false) :
    requireSeeded s t = fail .unseeded s := by
  simp [requireSeeded, h]

/-- The state check goes on or fails, and says which. -/
theorem requireSeeded_cases (s t : State) :
    (s.seeded = true ∧ requireSeeded s t = t) ∨ (s.seeded = false ∧ requireSeeded s t = fail .unseeded s) := by
  cases h : s.seeded <;> simp [requireSeeded, h]

@[simp] theorem accept_none (s : State) : accept none s = s := rfl

@[simp] theorem accept_some (w : CmdWord) (s : State) :
    accept (some w) s = { s with cmd := some w, work := none, rsp := none } := rfl

/-- Acceptance takes the presented word or does nothing. -/
theorem accept_cases (c : Option CmdWord) (s : State) :
    (c = none ∧ accept c s = s) ∨
      (∃ w, c = some w ∧ accept c s = { s with cmd := some w, work := none, rsp := none }) := by
  cases c with
  | none => exact .inl ⟨rfl, rfl⟩
  | some w => exact .inr ⟨w, rfl, rfl⟩

@[simp] theorem deliver_waiting (w : CmdWord) (r : Response) (s : State) : deliver false w r s = s := rfl

@[simp] theorem deliver_ready (w : CmdWord) (r : Response) (s : State) :
    deliver true w r s = { s with cmd := none, work := none, rsp := none, trace := s.trace ++ [(w, r)] } := rfl

/-- A draw is the raw output and the transition. -/
theorem complete_eq (g : Gen) (v : Word64) (s : State) :
    complete g v s = { s with s0 := g.s0, s1 := g.s1, work := none, rsp := some ⟨.ok, v⟩ } := rfl

theorem fail_eq (st : Status) (s : State) : fail st s = { s with work := none, rsp := some ⟨st, 0⟩ } := rfl

theorem respond_eq (st : Status) (v : Word64) (s : State) :
    respond st v s = { s with work := none, rsp := some ⟨st, v⟩ } := rfl

theorem holdDraw_eq (g : Gen) (s : State) : holdDraw g s = { s with work := some g } := rfl

theorem resetBlock_eq (s : State) : resetBlock s = { State.reset with host := s.host } := rfl

end Sys2Proof.Machine
end

