-- ==== Sys2Proof/Laws/Exec.lean ====
section
/-! SUPPORT. What each command can answer, one lemma per command, and what every command leaves alone. -/

namespace Sys2Proof.Machine

theorem execSeed_eq (v : Word64) (s : State) : execSeed v s = .next (complete (expand v) 0 (markSeeded s)) := rfl

theorem execMix_eq (z : Word64) (s : State) : execMix z s = .next (respond .ok (mix z) s) := rfl

/-- A command that makes one draw answers, or fails for want of a seed. -/
theorem drawOnce_cases (f : Word64 → Word64) (s : State) :
    (s.seeded = true ∧ requireSeeded s (drawOnce f s) = complete (advance s.gen) (f (output s.gen)) s) ∨
      (s.seeded = false ∧ requireSeeded s (drawOnce f s) = fail .unseeded s) :=
  requireSeeded_cases s (drawOnce f s)

theorem execNext64_cases (s : State) :
    (s.seeded = true ∧ execNext64 s = .next (complete (advance s.gen) (output s.gen) s)) ∨
      (s.seeded = false ∧ execNext64 s = .next (fail .unseeded s)) := by
  obtain ⟨h, e⟩ | ⟨h, e⟩ := drawOnce_cases (fun w => w) s
  · exact .inl ⟨h, by rw [execNext64, e]⟩
  · exact .inr ⟨h, by rw [execNext64, e]⟩

theorem execF64_cases (s : State) :
    (s.seeded = true ∧ execF64 s = .next (complete (advance s.gen) (f64bits (top53 (output s.gen))) s)) ∨
      (s.seeded = false ∧ execF64 s = .next (fail .unseeded s)) := by
  obtain ⟨h, e⟩ | ⟨h, e⟩ := drawOnce_cases (fun w => f64bits (top53 w)) s
  · exact .inl ⟨h, by rw [execF64, e]⟩
  · exact .inr ⟨h, by rw [execF64, e]⟩

theorem execF32_cases (s : State) :
    (s.seeded = true ∧
        execF32 s = .next (complete (advance s.gen) (zext64 (f32bits (top24 (output s.gen)))) s)) ∨
      (s.seeded = false ∧ execF32 s = .next (fail .unseeded s)) := by
  obtain ⟨h, e⟩ | ⟨h, e⟩ := drawOnce_cases (fun w => zext64 (f32bits (top24 w))) s
  · exact .inl ⟨h, by rw [execF32, e]⟩
  · exact .inr ⟨h, by rw [execF32, e]⟩

/-- One draw of the rejection path is accepted and completes the command, or is rejected and kept. -/
theorem rejectOnce_cases (b : Word32) (s : State) :
    (accepts b (output (working s)) = true ∧
        rejectOnce b s = complete (advance (working s)) (residue b (output (working s))) s) ∨
      (accepts b (output (working s)) = false ∧ rejectOnce b s = holdDraw (advance (working s)) s) := by
  cases h : accepts b (output (working s)) <;> simp [rejectOnce, draw, h]

theorem nonPositive_iff (b : Word32) : nonPositive b = true ↔ b.toInt ≤ 0 := by simp [nonPositive]

theorem nonPositive_eq_false_iff (b : Word32) : nonPositive b = false ↔ 0 < b.toInt := by simp [nonPositive]

/-- The five ends of BOUNDED, in the order of its checks (42_bounded.md R70). -/
theorem execBounded_cases (b : Word32) (s : State) :
    (b.toInt ≤ 0 ∧ execBounded b s = .next (fail .invalidArgument s)) ∨
    (0 < b.toInt ∧ s.seeded = false ∧ execBounded b s = .next (fail .unseeded s)) ∨
    (0 < b.toInt ∧ s.seeded = true ∧ powerOfTwo b = true ∧
      execBounded b s = .next (complete (advance s.gen) (maskDraw b (output s.gen)) s)) ∨
    (0 < b.toInt ∧ s.seeded = true ∧ powerOfTwo b = false ∧ accepts b (output (working s)) = true ∧
      execBounded b s = .next (complete (advance (working s)) (residue b (output (working s))) s)) ∨
    (0 < b.toInt ∧ s.seeded = true ∧ powerOfTwo b = false ∧ accepts b (output (working s)) = false ∧
      execBounded b s = .next (holdDraw (advance (working s)) s)) := by
  by_cases hb : b.toInt ≤ 0
  · exact .inl ⟨hb, by simp [execBounded, (nonPositive_iff b).2 hb]⟩
  · have hp : 0 < b.toInt := by omega
    have hn : nonPositive b = false := (nonPositive_eq_false_iff b).2 hp
    cases hs : s.seeded with
    | false => exact .inr (.inl ⟨hp, rfl, by simp [execBounded, hn, hs]⟩)
    | true =>
      cases h2 : powerOfTwo b with
      | true => exact .inr (.inr (.inl ⟨hp, rfl, rfl, by simp [execBounded, hn, hs, h2, drawOnce, draw]⟩))
      | false =>
        obtain ⟨ha, e⟩ | ⟨ha, e⟩ := rejectOnce_cases b s
        · exact .inr (.inr (.inr (.inl ⟨hp, rfl, rfl, ha, by simp [execBounded, hn, hs, h2, e]⟩)))
        · exact .inr (.inr (.inr (.inr ⟨hp, rfl, rfl, ha, by simp [execBounded, hn, hs, h2, e]⟩)))

/-- Every end of a command: it answers OK and has its effect on the words, it fails and has none, or a draw is kept. -/
theorem exec_cases (i : Instr) (s : State) :
    (∃ v, i = .seed v ∧ exec i s = .next (complete (expand v) 0 (markSeeded s))) ∨
    (∃ z, i = .mix z ∧ exec i s = .next (respond .ok (mix z) s)) ∨
    (s.seeded = true ∧ (∀ v, i ≠ .seed v) ∧ (∀ z, i ≠ .mix z) ∧
      ∃ v, exec i s = .next (complete (advance s.gen) v s)) ∨
    (∃ b, i = .bounded b ∧ s.seeded = true ∧ 0 < b.toInt ∧ powerOfTwo b = false ∧
      accepts b (output (working s)) = true ∧
      exec i s = .next (complete (advance (working s)) (residue b (output (working s))) s)) ∨
    (∃ b, i = .bounded b ∧ s.seeded = true ∧ 0 < b.toInt ∧ powerOfTwo b = false ∧
      accepts b (output (working s)) = false ∧ exec i s = .next (holdDraw (advance (working s)) s)) ∨
    ((∀ v, i ≠ .seed v) ∧ (∀ z, i ≠ .mix z) ∧
      ((s.seeded = false ∧ exec i s = .next (fail .unseeded s)) ∨
        (∃ b, i = .bounded b ∧ b.toInt ≤ 0 ∧ exec i s = .next (fail .invalidArgument s)))) := by
  cases i with
  | seed v => exact .inl ⟨v, rfl, rfl⟩
  | mix z => exact .inr (.inl ⟨z, rfl, rfl⟩)
  | next64 =>
    obtain ⟨h, e⟩ | ⟨h, e⟩ := execNext64_cases s
    · exact .inr (.inr (.inl ⟨h, by simp, by simp, _, e⟩))
    · exact .inr (.inr (.inr (.inr (.inr ⟨by simp, by simp, .inl ⟨h, e⟩⟩))))
  | bounded b =>
    obtain ⟨h, e⟩ | ⟨_, h, e⟩ | ⟨_, h, _, e⟩ | ⟨hp, h, h2, ha, e⟩ | ⟨hp, h, h2, ha, e⟩ := execBounded_cases b s
    · exact .inr (.inr (.inr (.inr (.inr ⟨by simp, by simp, .inr ⟨b, rfl, h, e⟩⟩))))
    · exact .inr (.inr (.inr (.inr (.inr ⟨by simp, by simp, .inl ⟨h, e⟩⟩))))
    · exact .inr (.inr (.inl ⟨h, by simp, by simp, _, e⟩))
    · exact .inr (.inr (.inr (.inl ⟨b, rfl, h, hp, h2, ha, e⟩)))
    · exact .inr (.inr (.inr (.inr (.inl ⟨b, rfl, h, hp, h2, ha, e⟩))))
  | f64 =>
    obtain ⟨h, e⟩ | ⟨h, e⟩ := execF64_cases s
    · exact .inr (.inr (.inl ⟨h, by simp, by simp, _, e⟩))
    · exact .inr (.inr (.inr (.inr (.inr ⟨by simp, by simp, .inl ⟨h, e⟩⟩))))
  | f32 =>
    obtain ⟨h, e⟩ | ⟨h, e⟩ := execF32_cases s
    · exact .inr (.inr (.inl ⟨h, by simp, by simp, _, e⟩))
    · exact .inr (.inr (.inr (.inr (.inr ⟨by simp, by simp, .inl ⟨h, e⟩⟩))))

/-- A command leaves the command in the block, the host's inputs and the delivered pairs as they are. -/
theorem exec_keeps_ports (i : Instr) (s t : State) (h : exec i s = .next t) :
    t.cmd = s.cmd ∧ t.host = s.host ∧ t.trace = s.trace := by
  obtain ⟨_, _, e⟩ | ⟨_, _, e⟩ | ⟨_, _, _, _, e⟩ | ⟨_, _, _, _, _, _, e⟩ | ⟨_, _, _, _, _, _, e⟩ | ⟨_, _, ⟨_, e⟩ | ⟨_, _, _, e⟩⟩ :=
    exec_cases i s
  all_goals
    rw [h, Host.Outcome.next.injEq] at e
    subst e
    simp

theorem drawOnce_withHost (f : Word64 → Word64) (s : State) (h : List HostInput) :
    drawOnce f { s with host := h } = { drawOnce f s with host := h } := by
  rw [drawOnce, complete_withHost, gen_withHost, drawOnce]

theorem rejectOnce_withHost (b : Word32) (s : State) (h : List HostInput) :
    rejectOnce b { s with host := h } = { rejectOnce b s with host := h } := by
  unfold rejectOnce
  rw [working_withHost, complete_withHost, holdDraw_withHost]
  split <;> rfl

/-- What a command does does not depend on the host's inputs. -/
theorem exec_withHost (i : Instr) (s t : State) (h : List HostInput) (he : exec i s = .next t) :
    exec i { s with host := h } = .next { t with host := h } := by
  cases i with
  | seed v =>
    rw [exec, execSeed_eq, Host.Outcome.next.injEq] at he
    rw [exec, execSeed_eq, markSeeded_withHost, complete_withHost, he]
  | mix v =>
    rw [exec, execMix_eq, Host.Outcome.next.injEq] at he
    rw [exec, execMix_eq, respond_withHost, he]
  | next64 =>
    rw [exec, execNext64, Host.Outcome.next.injEq] at he
    rw [exec, execNext64, drawOnce_withHost, requireSeeded_withHost, he]
  | f64 =>
    rw [exec, execF64, Host.Outcome.next.injEq] at he
    rw [exec, execF64, drawOnce_withHost, requireSeeded_withHost, he]
  | f32 =>
    rw [exec, execF32, Host.Outcome.next.injEq] at he
    rw [exec, execF32, drawOnce_withHost, requireSeeded_withHost, he]
  | bounded b =>
    rw [exec, execBounded, Host.Outcome.next.injEq] at he
    rw [exec, execBounded, Host.Outcome.next.injEq, drawOnce_withHost, rejectOnce_withHost, fail_withHost, ← he]
    split
    · rfl
    · rw [← requireSeeded_withHost]
      split <;> rfl

end Sys2Proof.Machine
end

