-- ==== Sys2Proof/Laws/Functions.lean ====
section
/-! SUPPORT. What the pure functions of the block compute, in plain arithmetic. -/

namespace Sys2Proof.Machine

theorem guardZero_s0 (a b : Word64) : (guardZero ⟨a, b⟩).s0 = if a = 0 ∧ b = 0 then fallbackS0 else a := by
  simp only [guardZero, Gen.mk.injEq]
  split <;> rfl

theorem guardZero_s1 (a b : Word64) : (guardZero ⟨a, b⟩).s1 = if a = 0 ∧ b = 0 then fallbackS1 else b := by
  simp only [guardZero, Gen.mk.injEq]
  split <;> rfl

theorem advance_s0 (g : Gen) : (advance g).s0 = g.s1 := (rfl)

theorem output_toNat (g : Gen) : (output g).toNat = (g.s0.toNat + g.s1.toNat) % 2 ^ 64 := BitVec.toNat_add _ _

/-- A signed 32-bit bound is positive when its pattern lies between 1 and 2^31 - 1 (42_bounded.md R71). -/
theorem toInt_pos_iff (b : Word32) : 0 < b.toInt ↔ 0 < b.toNat ∧ b.toNat < 2 ^ 31 := by
  rw [BitVec.toInt_eq_toNat_cond]
  have := b.isLt
  split <;> omega

/-- `n & (n - 1)` is 0 exactly for the powers of two (42_bounded.md R72). -/
theorem and_pred_eq_zero_iff (n : Nat) (h : 0 < n) : n &&& (n - 1) = 0 ↔ ∃ k, n = 2 ^ k := by
  constructor
  · intro h0
    induction n using Nat.strong_induction_on with
    | _ n ih =>
      have half : ∀ i, ((n / 2) &&& ((n - 1) / 2)).testBit i = false := by
        intro i
        have := congrArg (fun x => x.testBit (i + 1)) h0
        simp only [Nat.testBit_and, Nat.zero_testBit] at this ⊢
        rwa [Nat.testBit_succ, Nat.testBit_succ] at this
      have hz : (n / 2) &&& ((n - 1) / 2) = 0 := Nat.eq_of_testBit_eq (fun i => by rw [half i, Nat.zero_testBit])
      rcases Nat.even_or_odd' n with ⟨m, rfl | rfl⟩
      · rw [show 2 * m / 2 = m by omega, show (2 * m - 1) / 2 = m - 1 by omega] at hz
        obtain ⟨k, hk⟩ := ih m (by omega) (by omega) hz
        exact ⟨k + 1, by rw [pow_succ, ← hk, Nat.mul_comm]⟩
      · rw [show (2 * m + 1) / 2 = m by omega, show (2 * m + 1 - 1) / 2 = m by omega, Nat.and_self] at hz
        exact ⟨0, by rw [hz]; rfl⟩
  · rintro ⟨k, rfl⟩
    rw [Nat.and_two_pow_sub_one_eq_mod, Nat.mod_self]

theorem pred_toNat (b : Word32) (h : 0 < b.toNat) : (b - 1).toNat = b.toNat - 1 := by
  rw [BitVec.toNat_sub_of_le]
  · rfl
  · rw [BitVec.le_def]
    exact h

theorem powerOfTwo_iff (b : Word32) (h : 0 < b.toInt) : powerOfTwo b = true ↔ ∃ k, b.toNat = 2 ^ k := by
  have hb := (toInt_pos_iff b).1 h
  rw [← and_pred_eq_zero_iff _ hb.1, powerOfTwo, beq_iff_eq, ← BitVec.toNat_inj, BitVec.toNat_and, pred_toNat b hb.1]
  rfl

theorem candidate_toNat (w : Word64) : (candidate w).toNat = w.toNat / 2 % 2 ^ 31 := by
  simp [candidate, Nat.shiftRight_eq_div_pow]

theorem threshold_eq (b : Nat) : threshold b = 2147483647 - 2147483647 % b := (rfl)

theorem accepts_iff (b : Word32) (w : Word64) :
    accepts b w = true ↔ w.toNat / 2 % 2 ^ 31 < 2147483647 - 2147483647 % b.toNat := by
  rw [accepts, decide_eq_true_iff, candidate_toNat, threshold_eq]

theorem accepts_eq_false_iff (b : Word32) (w : Word64) :
    accepts b w = false ↔ 2147483647 - 2147483647 % b.toNat ≤ w.toNat / 2 % 2 ^ 31 := by
  rw [← Bool.not_eq_true, accepts_iff, Nat.not_lt]

theorem residue_eq (b : Word32) (w : Word64) :
    residue b w = BitVec.ofNat 64 (w.toNat / 2 % 2 ^ 31 % b.toNat) := by
  rw [residue, candidate_toNat]

theorem top53_toNat (w : Word64) : (top53 w).toNat = w.toNat / 2 ^ 11 := by
  simp only [top53, BitVec.extractLsb'_toNat, Nat.shiftRight_eq_div_pow]
  have := w.isLt
  omega

theorem top24_toNat (w : Word64) : (top24 w).toNat = w.toNat / 2 ^ 40 := by
  simp only [top24, BitVec.extractLsb'_toNat, Nat.shiftRight_eq_div_pow]
  have := w.isLt
  omega

/-- `topBit` is the position of the most significant 1 bit (43_float.md R81). -/
theorem topBit_spec (m n : Nat) (h0 : m ≠ 0) (h : m < 2 ^ n) :
    topBit m n < n ∧ 2 ^ topBit m n ≤ m ∧ m < 2 ^ (topBit m n + 1) := by
  induction n with
  | zero => omega
  | succ n ih =>
    unfold topBit
    split
    · exact ⟨by omega, Nat.ge_two_pow_of_testBit ‹_›, h⟩
    · have hlt : m < 2 ^ n := by
        by_contra hc
        have h1 : m / 2 ^ n = 1 := Nat.div_eq_of_lt_le (by omega) (by rw [pow_succ] at h; omega)
        have hb : m.testBit n = true := by rw [Nat.testBit_eq_decide_div_mod_eq]; simp [h1]
        contradiction
      obtain ⟨a, b, c⟩ := ih hlt
      exact ⟨by omega, b, c⟩

/-- Concatenation as arithmetic (00_scope.md R6). -/
theorem append_toNat {m n : Nat} (x : BitVec m) (y : BitVec n) : (x ++ y).toNat = x.toNat * 2 ^ n + y.toNat := by
  rw [BitVec.toNat_append, ← Nat.shiftLeft_add_eq_or_of_lt y.isLt, Nat.shiftLeft_eq]

/-- The binary64 pattern of a non-zero `m` as exponent and fraction (43_float.md R81). -/
theorem f64bits_toNat (m : BitVec 53) (h : m ≠ 0) :
    (f64bits m).toNat =
      (970 + topBit m.toNat 53) * 2 ^ 52 + (m.toNat * 2 ^ (52 - topBit m.toNat 53) - 2 ^ 52) ∧
    2 ^ 52 ≤ m.toNat * 2 ^ (52 - topBit m.toNat 53) ∧ m.toNat * 2 ^ (52 - topBit m.toNat 53) < 2 ^ 53 := by
  have hm0 : m.toNat ≠ 0 := fun e => h (by rw [← BitVec.toNat_inj]; simpa using e)
  obtain ⟨hk, hlo, hhi⟩ := topBit_spec m.toNat 53 hm0 m.isLt
  have e1 : 2 ^ topBit m.toNat 53 * 2 ^ (52 - topBit m.toNat 53) = 2 ^ 52 := by
    rw [← pow_add]; congr 1; omega
  have h1 := Nat.mul_le_mul_right (2 ^ (52 - topBit m.toNat 53)) hlo
  have h2 := Nat.mul_lt_mul_of_pos_right hhi (Nat.two_pow_pos (52 - topBit m.toNat 53))
  rw [pow_succ, mul_right_comm, e1] at h2
  rw [e1] at h1
  refine ⟨?_, h1, h2⟩
  simp only [f64bits, if_neg h]
  refine (append_toNat _ _).trans ?_
  rw [append_toNat]
  simp only [BitVec.toNat_ofNat, Nat.shiftLeft_eq]
  rw [Nat.mod_eq_of_lt (show 970 + topBit m.toNat 53 < 2 ^ 11 by omega)]
  omega

/-- The binary32 pattern of a non-zero `m` as exponent and fraction (43_float.md R84). -/
theorem f32bits_toNat (m : BitVec 24) (h : m ≠ 0) :
    (f32bits m).toNat =
      (103 + topBit m.toNat 24) * 2 ^ 23 + (m.toNat * 2 ^ (23 - topBit m.toNat 24) - 2 ^ 23) ∧
    2 ^ 23 ≤ m.toNat * 2 ^ (23 - topBit m.toNat 24) ∧ m.toNat * 2 ^ (23 - topBit m.toNat 24) < 2 ^ 24 := by
  have hm0 : m.toNat ≠ 0 := fun e => h (by rw [← BitVec.toNat_inj]; simpa using e)
  obtain ⟨hk, hlo, hhi⟩ := topBit_spec m.toNat 24 hm0 m.isLt
  have e1 : 2 ^ topBit m.toNat 24 * 2 ^ (23 - topBit m.toNat 24) = 2 ^ 23 := by
    rw [← pow_add]; congr 1; omega
  have h1 := Nat.mul_le_mul_right (2 ^ (23 - topBit m.toNat 24)) hlo
  have h2 := Nat.mul_lt_mul_of_pos_right hhi (Nat.two_pow_pos (23 - topBit m.toNat 24))
  rw [pow_succ, mul_right_comm, e1] at h2
  rw [e1] at h1
  refine ⟨?_, h1, h2⟩
  simp only [f32bits, if_neg h]
  refine (append_toNat _ _).trans ?_
  rw [append_toNat]
  simp only [BitVec.toNat_ofNat, Nat.shiftLeft_eq]
  rw [Nat.mod_eq_of_lt (show 103 + topBit m.toNat 24 < 2 ^ 8 by omega)]
  omega

/-- The three ends of an operation of the source: its first error, a missing response, its value (44_pseudo_ops.md R97; log
entry 9). -/
theorem result_cases (op : SourceOp) (rs : List Response) :
    (∃ e, firstError rs = some e ∧ op.result rs = .failed e) ∨
    (firstError rs = none ∧ rs.length < op.commands.length ∧ op.result rs = .unanswered) ∨
    (firstError rs = none ∧ op.commands.length ≤ rs.length ∧
      op.result rs = .returned (op.value (rs.map Response.result))) := by
  cases h : firstError rs with
  | some e => exact .inl ⟨e, rfl, by simp [SourceOp.result, h]⟩
  | none =>
    by_cases hl : rs.length < op.commands.length
    · exact .inr (.inl ⟨rfl, hl, by simp [SourceOp.result, h, hl]⟩)
    · exact .inr (.inr ⟨rfl, Nat.le_of_not_lt hl, by simp [SourceOp.result, h, hl]⟩)

end Sys2Proof.Machine
end

