-- ==== Sys2Proof/Laws/PerInstr.lean ====
section
/-! SUPPORT. Facts about every command as syntax, one lemma per constructor. -/

namespace Sys2Proof.Laws.EncodedFields

/-- The word of a command carries its opcode and its operand in their fields (30_encoding.md R30, R32, R33), and the command
is well formed. -/
def Statement (i : Instr) : Prop :=
  opField (encode i) = i.opcode ∧ argField (encode i) = i.arg ∧ i.wellFormed = true

theorem seed (v : Word64) : Statement (.seed v) := ⟨opField_cmdWord _ _, argField_cmdWord _ _, rfl⟩

theorem mix (z : Word64) : Statement (.mix z) := ⟨opField_cmdWord _ _, argField_cmdWord _ _, rfl⟩

theorem next64 : Statement .next64 := ⟨opField_cmdWord _ _, argField_cmdWord _ _, rfl⟩

theorem bounded (b : Word32) : Statement (.bounded b) := ⟨opField_cmdWord _ _, argField_cmdWord _ _, rfl⟩

theorem f64 : Statement .f64 := ⟨opField_cmdWord _ _, argField_cmdWord _ _, rfl⟩

theorem f32 : Statement .f32 := ⟨opField_cmdWord _ _, argField_cmdWord _ _, rfl⟩

end Sys2Proof.Laws.EncodedFields
end

