-- ==== Sys2Proof/Laws/Step.lean ====
section
/-! SUPPORT. What a step can do, once: every invariant is a case analysis over `step_cases`. -/

namespace Sys2Proof.Machine

theorem step_of_rst (s : State) (h : (hostNow s).rst = true) : step s = .next (resetBlock (hostLater s)) := by
  simp [step, cycle, h]

theorem step_of_idle (s : State) (h : (hostNow s).rst = false) (hc : s.cmd = none) :
    step s = .next (accept (hostNow s).cmd (hostLater s)) := by
  simp [step, cycle, runPorts, h, hc]

theorem step_of_executing (s : State) (w : CmdWord) (h : (hostNow s).rst = false) (hc : s.cmd = some w)
    (hr : s.rsp = none) : step s = runCommand w (hostLater s) := by
  simp [step, cycle, runPorts, h, hc, hr]

theorem step_of_answered (s : State) (w : CmdWord) (r : Response) (h : (hostNow s).rst = false)
    (hc : s.cmd = some w) (hr : s.rsp = some r) :
    step s = .next (deliver (hostNow s).rspReady w r (hostLater s)) := by
  simp [step, cycle, runPorts, h, hc, hr]

theorem runCommand_of_instr (w : CmdWord) (i : Instr) (s : State) (h : decode w = .instr i) :
    runCommand w s = exec i s := by
  simp [runCommand, h]

theorem runCommand_of_illegal (w : CmdWord) (why : Illegal) (s : State) (h : decode w = .illegal why) :
    runCommand w s = .next (fail .illegal s) := by
  simp [runCommand, h]

/-- Everything a step can do: reset, accept or idle, execute, answer ILLEGAL, deliver or hold. -/
theorem step_cases (s : State) :
    ((hostNow s).rst = true ∧ step s = .next (resetBlock (hostLater s))) ∨
    ((hostNow s).rst = false ∧ s.cmd = none ∧ step s = .next (accept (hostNow s).cmd (hostLater s))) ∨
    ((hostNow s).rst = false ∧ ∃ w i, s.cmd = some w ∧ s.rsp = none ∧ decode w = .instr i ∧
      step s = exec i (hostLater s)) ∨
    ((hostNow s).rst = false ∧ ∃ w why, s.cmd = some w ∧ s.rsp = none ∧ decode w = .illegal why ∧
      step s = .next (fail .illegal (hostLater s))) ∨
    ((hostNow s).rst = false ∧ ∃ w r, s.cmd = some w ∧ s.rsp = some r ∧
      step s = .next (deliver (hostNow s).rspReady w r (hostLater s))) := by
  cases h : (hostNow s).rst with
  | true => exact .inl ⟨rfl, step_of_rst s h⟩
  | false =>
    cases hc : s.cmd with
    | none => exact .inr (.inl ⟨rfl, rfl, step_of_idle s h hc⟩)
    | some w =>
      cases hr : s.rsp with
      | some r => exact .inr (.inr (.inr (.inr ⟨rfl, w, r, rfl, rfl, step_of_answered s w r h hc hr⟩)))
      | none =>
        have e := step_of_executing s w h hc hr
        cases hd : decode w with
        | instr i => exact .inr (.inr (.inl ⟨rfl, w, i, rfl, rfl, hd, by rw [e, runCommand_of_instr w i _ hd]⟩))
        | illegal why =>
          exact .inr (.inr (.inr (.inl ⟨rfl, w, why, rfl, rfl, hd, by rw [e, runCommand_of_illegal w why _ hd]⟩)))

end Sys2Proof.Machine
end

