-- ==== Sys2Proof/Laws/Runs.lean ====
section
/-! SUPPORT. Runs of the machine and draws of a generator: composition, uniqueness, and the induction over runs, once. -/

namespace Sys2Proof.Machine

@[simp] theorem runs_zero (s t : State) : Runs 0 s t ↔ s = t := Iff.rfl

/-- One step is a run of length 1. -/
theorem runs_one (s t : State) (h : step s = .next t) : Runs 1 s t := ⟨t, h, (rfl)⟩

/-- Runs compose. -/
theorem runs_append (m n : Nat) (s u t : State) (h₁ : Runs m s u) (h₂ : Runs n u t) : Runs (m + n) s t := by
  induction m generalizing s with
  | zero =>
    obtain rfl : s = u := h₁
    rwa [Nat.zero_add]
  | succ m ih =>
    obtain ⟨v, hv, hr⟩ := h₁
    rw [Nat.succ_add_eq_add_succ]
    exact ⟨v, hv, ih v hr⟩

/-- The state a run leads to is determined by its length. -/
theorem runs_unique (n : Nat) (s t t' : State) (h : Runs n s t) (h' : Runs n s t') : t = t' := by
  induction n generalizing s with
  | zero => exact Eq.trans (Eq.symm h) h'
  | succ n ih =>
    obtain ⟨u, hu, hr⟩ := h
    obtain ⟨u', hu', hr'⟩ := h'
    rw [hu, Host.Outcome.next.injEq] at hu'
    subst hu'
    exact ih u hr hr'

/-- A property that every step keeps holds along every run. -/
theorem runs_keep (P : State → Prop) (keep : ∀ s t, P s → step s = .next t → P t) (n : Nat) (s t : State) (h : P s)
    (hr : Runs n s t) : P t := by
  induction n generalizing s with
  | zero =>
    obtain rfl : s = t := hr
    exact h
  | succ n ih =>
    obtain ⟨u, hu, hr⟩ := hr
    exact ih u (keep s u h hu) hr

@[simp] theorem genAfter_zero (g : Gen) : genAfter g 0 = g := (rfl)

@[simp] theorem genAfter_one (g : Gen) : genAfter g 1 = advance g := (rfl)

theorem genAfter_succ (g : Gen) (n : Nat) : genAfter g (n + 1) = advance (genAfter g n) :=
  Function.iterate_succ_apply' _ _ _

theorem genAfter_add (g : Gen) (m n : Nat) : genAfter g (m + n) = genAfter (genAfter g n) m :=
  Function.iterate_add_apply _ _ _ _

@[simp] theorem rawAfter_zero (g : Gen) : rawAfter g 0 = output g := (rfl)

theorem rawAfter_genAfter (g : Gen) (m n : Nat) : rawAfter (genAfter g n) m = rawAfter g (m + n) := by
  rw [rawAfter, rawAfter, genAfter_add]

/-- The rejection path is taken exactly by the bounds that pass both of BOUNDED's tests on the bound. -/
theorem rejectionPath_iff (b : Word32) : RejectionPath b ↔ 0 < b.toInt ∧ powerOfTwo b = false := by
  constructor
  · rintro ⟨h, h2⟩
    exact ⟨h, by rw [← Bool.not_eq_true, powerOfTwo_iff b h]; exact h2⟩
  · rintro ⟨h, h2⟩
    exact ⟨h, by rw [← powerOfTwo_iff b h, h2]; decide⟩

end Sys2Proof.Machine
end

