-- ==== Sys2Proof/Tests/Slice0.lean ====
section
/-! SUPPORT. Tests. Expected values are those of spec/95_test_vectors.md (vector ids in the comments) and of the worked
examples of the rules; then a witness for the hypotheses of every statement that has some. -/

namespace Sys2Proof.Machine

/-- A block with these words and flag, no command, a host that does nothing. -/
def block (a b : Word64) (seeded : Bool) : State := ⟨none, none, none, a, b, seeded, [], []⟩

/-- A block that has just accepted the word `w`. -/
def blockWith (w : CmdWord) (a b : Word64) (seeded : Bool) : State := ⟨none, none, some w, a, b, seeded, [], []⟩

/-- The response held, the words and the flag after a step. -/
def shown : Outcome → Option (Option Response × Gen × Bool)
  | .next t => some (t.rsp, t.gen, t.seeded)
  | .fault _ => none
  | .refused _ => none

/-- The state after `SEED 123456789` (V-SEED-4). -/
def seed123 : State := block 0x7A91DD183971EE2E 0x310E0831409AFDE5 true
/-- The words after one draw from it (V-SEQ-1). -/
def seed123Next : Gen := ⟨0x310E0831409AFDE5, 0xC78316949F9E88A3⟩
/-- The state after `SEED 2` (P3). -/
def seed2 : State := block 0xBFC846100BFC1E42 0x987BBCBFDD7E532F true

/-! Well-formedness: an ill-formed word for each check, refused. -/

theorem test_wf_reserved_opcodes : -- V-DEC-1 to V-DEC-4
    legalWord 0x000000000000000000 = false ∧ legalWord 0xFF0000000000000000 = false ∧
    legalWord 0x030000000000000000 = false ∧ legalWord 0x140000000000000000 = false := by decide

theorem test_wf_reserved_operand_bits : -- V-DEC-5 to V-DEC-8
    legalWord 0x100000000000000001 = false ∧ legalWord 0x120000000000000001 = false ∧
    legalWord 0x138000000000000000 = false ∧ legalWord 0x110000000100000005 = false := by decide

theorem test_wf_legal_words : -- V-DEC-9, V-DEC-10, P2
    legalWord 0x01FFFFFFFFFFFFFFFF = true ∧ legalWord 0x02FFFFFFFFFFFFFFFF = true ∧
    legalWord 0x100000000000000000 = true ∧ legalWord 0x1100000000FFFFFFFB = true := by decide

theorem test_wf_every_instr : Instr.wellFormed (.bounded 0x80000000) = true ∧ Instr.wellFormed .f32 = true := by decide

/-! Decoding and encoding: one word written out for each command. -/

theorem test_decode_seed : decode 0x0100000000075BCD15 = .instr (.seed 123456789) := by decide
theorem test_decode_mix : decode 0x02FFFFFFFFFFFFFFFF = .instr (.mix 0xFFFFFFFFFFFFFFFF) := by decide
theorem test_decode_next64 : decode 0x100000000000000000 = .instr .next64 := by decide
theorem test_decode_bounded : decode 0x1100000000FFFFFFFB = .instr (.bounded 0xFFFFFFFB) := by decide
theorem test_decode_f64 : decode 0x120000000000000000 = .instr .f64 := by decide
theorem test_decode_f32 : decode 0x130000000000000000 = .instr .f32 := by decide
theorem test_decode_sign_extended_bound_illegal : -- V-BND-16
    decode 0x11FFFFFFFFFFFFFFFB = .illegal (.reservedOperand 0x11) := by decide
theorem test_encode_bounded : encode (.bounded 0x40000001) = 0x110000000040000001 := by decide -- P3
theorem test_decodeTableWord : decodeTableWord 72 0x11000000000000000A = some (.bounded 10) := by decide

/-! The commands, one step each. -/

theorem test_seed_replaces_words : -- V-SEED-4
    shown (exec (.seed 123456789) (block 5 6 false)) = some (some ⟨.ok, 0⟩, seed123.gen, true) := by decide
theorem test_seed_zero_word_is_no_fallback : -- V-SEED-5
    shown (exec (.seed 0xC3910C8D016B07D6) seed123) = some (some ⟨.ok, 0⟩, ⟨0, 0xE220A8397B1DCDAF⟩, true) := by decide
theorem test_mix_unseeded : -- V-MIX-3
    shown (exec (.mix 0xFFFFFFFFFFFFFFFF) (block 5 6 false)) = some (some ⟨.ok, 0xE4D971771B652C20⟩, ⟨5, 6⟩, false) := by
  decide
theorem test_mix_zero : mix 0x61C8864680B583EB = 0 := by decide -- V-MIX-4
theorem test_next64_logical_shifts : -- V-ADV-4
    shown (exec .next64 (block 0xFFFFFFFFFFFFFFFF 0xFFFFFFFFFFFFFFFF true)) =
      some (some ⟨.ok, 0xFFFFFFFFFFFFFFFE⟩, ⟨0xFFFFFFFFFFFFFFFF, 0xFFFFFFC0007FFFC0⟩, true) := by decide
theorem test_next64_seed123 : -- V-SEQ-1
    shown (exec .next64 seed123) = some (some ⟨.ok, 0xAB9FE5497A0CEC13⟩, seed123Next, true) := by decide
theorem test_bounded_mask : -- V-BND-4
    shown (exec (.bounded 0x40000000) seed123) = some (some ⟨.ok, 0x3A0CEC13⟩, seed123Next, true) := by decide
theorem test_bounded_accepts : -- V-BND-6
    shown (exec (.bounded 10) seed123) = some (some ⟨.ok, 9⟩, seed123Next, true) := by decide
theorem test_f64_seed123 : -- V-F64-12
    shown (exec .f64 seed123) = some (some ⟨.ok, 0x3FE573FCA92F419D⟩, seed123Next, true) := by decide
theorem test_f64_corners : -- V-F64-2, V-F64-3, V-F64-7, V-F64-4
    f64bits (top53 0x7FF) = 0 ∧ f64bits (top53 0x800) = 0x3CA0000000000000 ∧
    f64bits (top53 0xFFFFFFFFFFFFFFFF) = 0x3FEFFFFFFFFFFFFF ∧ f64bits (top53 0xFFFFFFFFFF) = 0x3E6FFFFFFF000000 := by
  decide
theorem test_f32_seed123 : -- V-F32-12
    shown (exec .f32 seed123) = some (some ⟨.ok, 0x3F2B9FE5⟩, seed123Next, true) := by decide
theorem test_f32_corners : -- V-F32-4, V-F32-5, V-F32-8, V-F32-10
    f32bits (top24 0xFFFFFFFFFF) = 0 ∧ f32bits (top24 0x10000000000) = 0x33800000 ∧
    f32bits (top24 0xFFFFFF0000000000) = 0x3F7FFFFF ∧ f32bits (top24 0x0010000000000000) = 0x39800000 := by decide

/-! Statuses and the ports. -/

theorem test_priority_argument_before_state : -- V-DEC-12
    shown (step (blockWith 0x110000000000000000 5 6 false)) = some (some ⟨.invalidArgument, 0⟩, ⟨5, 6⟩, false) := by decide
theorem test_priority_decode_first : -- V-DEC-13
    shown (step (blockWith 0x110000000100000000 5 6 false)) = some (some ⟨.illegal, 0⟩, ⟨5, 6⟩, false) := by decide
theorem test_unseeded : -- V-DEC-11
    shown (step (blockWith 0x100000000000000000 5 6 false)) = some (some ⟨.unseeded, 0⟩, ⟨5, 6⟩, false) := by decide
theorem test_rejected_draw_is_held : -- V-BND-9, draw 1
    shown (step { seed2 with cmd := some 0x110000000040000001 }) = some (none, seed2.gen, true) := by decide
theorem test_second_draw_completes : -- V-BND-9, draw 2
    shown (step { seed2 with cmd := some 0x110000000040000001,
                             work := some ⟨0x987BBCBFDD7E532F, 0x2FB65F603562F7E4⟩ }) =
      some (some ⟨.ok, 0x0970A589⟩, ⟨0x2FB65F603562F7E4, 0xE8233F3713C059B9⟩, true) := by decide
theorem test_response_words : -- 2.7
    (⟨.invalidArgument, 0⟩ : Response).word = 0x10000000000000000 ∧
    (⟨.unseeded, 0⟩ : Response).word = 0x20000000000000000 ∧
    (⟨.illegal, 0⟩ : Response).word = 0x30000000000000000 := by decide

/-! Pseudo-operations and the written form. -/

theorem test_fill_bytes : -- V-PSE-4
    fillStore 11 [0x753CFB8321C2AB43, 0x64B08F6DCBD49096] =
      [0x43, 0xAB, 0xC2, 0x21, 0x83, 0xFB, 0x3C, 0x75, 0x96, 0x90, 0xD4] := by decide
theorem test_fill_draws : (SourceOp.fillBytes 11).commands = [.next64, .next64] ∧ fillDraws 0 = 0 ∧ fillDraws 8 = 1 := by
  decide
theorem test_read_values : -- V-PSE-1, V-PSE-2, V-PSE-3
    readInt64 0xAB9FE5497A0CEC13 = -6079888868183839725 ∧ readInt32 0x64B08F6DCBD49096 = -875261802 ∧
    readBool 0x753CFB8321C2AB43 = true ∧ readBool 0x64B08F6DCBD49096 = false := by decide
theorem test_host_error :
    (SourceOp.nextBoundedInt32 0).result [⟨.invalidArgument, 0⟩] = .failed .invalidArgument := by decide
theorem test_missing_response : SourceOp.nextInt64.result [] = .unanswered ∧
    (SourceOp.fillBytes 9).result [⟨.ok, 1⟩] = .unanswered ∧ (SourceOp.fillBytes 0).result [] = .returned (.bytes []) := by
  decide
theorem test_assemble_negative : -- R41: BOUNDED -5
    assembleLine ['B', 'O', 'U', 'N', 'D', 'E', 'D', ' ', '-', '5', ' ', ';', 'x'] = .command (.bounded 0xFFFFFFFB) := by
  decide
theorem test_assemble_two_lines :
    assemble ['N', 'E', 'X', 'T', '6', '4', '\n', '\n', 'M', 'I', 'X', ' ', '0', 'x', 'f', 'F'] =
      some [.next64, .mix 255] := by decide
theorem test_written_word : -- R41: SEED 123456789
    cmdText 0x0100000000075BCD15 =
      ['0', 'x', '0', '1', '0', '0', '0', '0', '0', '0', '0', '0', '0', '7', '5', 'B', 'C', 'D', '1', '5'] := by decide

/-! Witnesses: for every statement with hypotheses, states and operands that meet them all. -/

/-- ResetAbandonsWhateverRuns: a reset during a BOUNDED with a rejected draw. -/
theorem witness_reset_in_flight :
    (hostNow { seed2 with cmd := some 0x110000000040000001, work := some ⟨1, 2⟩, host := [⟨true, none, true⟩] }).rst = true := by
  decide

/-- Next64AnswersTheSumAndSteps, F64AnswersTopBitsAsDouble, F32AnswersTopBitsAsSingle, ConvertersReadTheRawOutputOfNext64: a
seeded block; and the raw outputs at
both ends of the range. -/
theorem witness_seeded : seed123.seeded = true ∧ (block 0 1 true).seeded = true ∧
    output (block 0 0 true).gen = 0 ∧ output (block 0xFFFFFFFFFFFFFFFF 0 true).gen = 0xFFFFFFFFFFFFFFFF := by decide

/-- InvalidArgumentIsForNonPositiveBounds: the bounds 0, -1, -2^31 fail, 1 and 2^31 - 1 pass. -/
theorem witness_nonpositive : (0 : Word32).toInt ≤ 0 ∧ (0xFFFFFFFF : Word32).toInt ≤ 0 ∧ (0x80000000 : Word32).toInt ≤ 0 ∧
    0 < (1 : Word32).toInt ∧ 0 < (0x7FFFFFFF : Word32).toInt := by decide

/-- InvalidArgumentIsForNonPositiveBounds, third clause: a command answered INVALID_ARGUMENT. -/
theorem witness_invalid_answer : ∃ t, exec (.bounded 0) seed123 = .next t ∧ seed123.rsp = none ∧
    t.rsp = some ⟨.invalidArgument, 0⟩ := ⟨fail .invalidArgument seed123, rfl, rfl, rfl⟩

/-- PowerOfTwoBoundsMaskOneDraw: positive bounds of both kinds, and the ends of the range of `k`. -/
theorem witness_powers : 0 < (BitVec.ofNat 32 (2 ^ 0)).toInt ∧ 0 < (BitVec.ofNat 32 (2 ^ 30)).toInt ∧
    (BitVec.ofNat 32 (2 ^ 30) &&& (BitVec.ofNat 32 (2 ^ 30) - 1)) = 0 ∧ ((3 : Word32) &&& (3 - 1)) ≠ 0 := by decide

/-- ThresholdRemovesTheBias, the rejection path: the smallest and the largest bound, and the one that rejects most (R74). -/
theorem witness_rejection_path : RejectionPath 3 ∧ RejectionPath 0x7FFFFFFF ∧ RejectionPath 0x40000001 ∧ RejectionPath 10 :=
  ⟨(rejectionPath_iff 3).2 (by decide), (rejectionPath_iff 0x7FFFFFFF).2 (by decide),
    (rejectionPath_iff 0x40000001).2 (by decide), (rejectionPath_iff 10).2 (by decide)⟩

/-- RejectionPathAcceptsBelowThreshold: with b = 10 the candidate 2147483639 is accepted and 2147483640 is not (2.4), and
b = 2^31 - 1 rejects the all-ones candidate alone. -/
theorem witness_threshold_edge :
    0xFFFFFFEE / 2 % 2 ^ 31 < 2147483647 - 2147483647 % 10 ∧ 2147483647 - 2147483647 % 10 ≤ 0xFFFFFFF0 / 2 % 2 ^ 31 ∧
    0xFFFFFFFC / 2 % 2 ^ 31 < 2147483647 - 2147483647 % 2147483647 ∧
    2147483647 - 2147483647 % 2147483647 ≤ 0xFFFFFFFE / 2 % 2 ^ 31 := by decide

/-- `BOUNDED 0x40000001` in the block after `SEED 2` (P3). -/
def boundedInFlight : State := { seed2 with cmd := some (encode (.bounded 0x40000001)) }

/-- BoundedAnswersFromFirstAcceptedDraw with one rejected draw (n = 1), BoundedIsAnsweredIffSomeDrawIsAccepted: the block of P3
meets every hypothesis. -/
theorem witness_bounded_in_flight :
    RejectionPath 0x40000001 ∧ Executing boundedInFlight (encode (.bounded 0x40000001)) ∧ boundedInFlight.seeded = true ∧
    boundedInFlight.work = none ∧ NoReset boundedInFlight 2 ∧ (∀ h ∈ boundedInFlight.host, h.rst = false) ∧
    (∀ k < 1, 2147483647 - 2147483647 % (0x40000001 : Word32).toNat ≤
      (rawAfter boundedInFlight.gen k).toNat / 2 % 2 ^ 31) ∧
    (rawAfter boundedInFlight.gen 1).toNat / 2 % 2 ^ 31 < 2147483647 - 2147483647 % (0x40000001 : Word32).toNat := by
  refine ⟨witness_rejection_path.2.2.1, ⟨rfl, rfl, rfl⟩, rfl, rfl, by simp [NoReset, boundedInFlight, seed2, block],
    by simp [boundedInFlight, seed2, block], fun k hk => ?_, by decide⟩
  obtain rfl : k = 0 := by omega
  decide

/-- UnseededBlockAnswersUnseeded, first clause: each drawing command, BOUNDED with the bounds 1 and 2^31 - 1. -/
theorem witness_unseeded : (block 5 6 false).seeded = false ∧ drawing .next64 = true ∧ drawing .f64 = true ∧
    drawing .f32 = true ∧ drawing (.bounded 1) = true ∧ 0 < (1 : Word32).toInt ∧ 0 < (0x7FFFFFFF : Word32).toInt := by decide

/-- UnseededBlockAnswersUnseeded, second clause; ErrorsHaveNoEffect: a command answered UNSEEDED. -/
theorem witness_unseeded_answer : ∃ t, exec .next64 (block 5 6 false) = .next t ∧ (block 5 6 false).rsp = none ∧
    t.rsp = some ⟨.unseeded, 0⟩ := ⟨fail .unseeded (block 5 6 false), rfl, rfl, rfl⟩

/-- MalformedWordsAnswerIllegal: a word of each of the three kinds in the block. -/
theorem witness_malformed :
    Executing (blockWith 0x140000000000000000 5 6 true) 0x140000000000000000 ∧
    (0x140000000000000000 : CmdWord).extractLsb' 64 8 ∉ ([0x01, 0x02, 0x10, 0x11, 0x12, 0x13] : List (BitVec 8)) ∧
    (0x110000000100000005 : CmdWord).extractLsb' 64 8 = 0x11 ∧ (0x110000000100000005 : CmdWord).extractLsb' 32 32 ≠ 0 ∧
    (0x138000000000000000 : CmdWord).extractLsb' 64 8 ∈ ([0x10, 0x12, 0x13] : List (BitVec 8)) ∧
    (0x138000000000000000 : CmdWord).extractLsb' 0 64 ≠ 0 := by
  refine ⟨⟨rfl, rfl, rfl⟩, by decide⟩

/-- DecodeAcceptsExactlyTheTableRows, EncodeOfDecodeIsTheWord, StepRunsTheDecodedCommand: a word in the block that decodes, and
one that does not; a table word. -/
theorem witness_decoded : Executing (blockWith 0x11000000000000000A 5 6 true) 0x11000000000000000A ∧
    decode 0x11000000000000000A = .instr (.bounded 10) ∧ decode 0 = .illegal (.reservedOpcode 0) ∧
    decodeTableWord 72 0x100000000000000000 = some .next64 := by
  refine ⟨⟨rfl, rfl, rfl⟩, by decide⟩

/-- EveryStepKeepsTheInvariant: a seeded block with a rejected draw in flight (P3) meets the invariant, and it steps. -/
theorem witness_invariant : Inv { boundedInFlight with work := some ⟨0x987BBCBFDD7E532F, 0x2FB65F603562F7E4⟩ } ∧
    ∃ t, step { boundedInFlight with work := some ⟨0x987BBCBFDD7E532F, 0x2FB65F603562F7E4⟩ } = .next t := by
  refine ⟨⟨fun _ => ⟨2, 0, by decide⟩, fun _ => by decide, fun r h => ?_, fun g h => ?_, fun p h => ?_⟩, _, rfl⟩
  · cases h
  · obtain rfl : _ = g := Option.some.inj h
    refine ⟨rfl, rfl, 0x40000001, 1, rfl, witness_rejection_path.2.2.1, by decide, by decide, fun k hk => ?_⟩
    obtain rfl : k = 0 := by omega
    decide
  · cases h

/-- UnseededWordsNeverShow: an unseeded block and a run of one step. -/
theorem witness_unseeded_run : (blockWith 0x010000000000000002 5 6 false).seeded = false ∧
    ∃ t, Runs 1 (blockWith 0x010000000000000002 5 6 false) t :=
  ⟨rfl, _, runs_one _ _ ((step_of_executing _ _ rfl rfl rfl).trans (runCommand_of_instr _ (.seed 2) _ (by decide)))⟩

/-- The block right after reset has answered an illegal word to a host that took the answer. -/
def afterIllegal : State :=
  { State.reset with trace := [(0, ⟨.illegal, 0⟩)] }

/-- ResponsesDependOnCommandWordsOnly: two hosts that wait one and two steps for the answer to the same illegal word. -/
theorem witness_two_timings : Runs 3 { State.reset with host := transaction 0 1 } afterIllegal ∧
    Runs 4 { State.reset with host := transaction 0 2 } afterIllegal ∧ afterIllegal.cmd = none :=
  ⟨⟨_, rfl, _, rfl, _, rfl, rfl⟩, ⟨_, rfl, _, rfl, _, rfl, _, rfl, rfl⟩, rfl⟩

/-- BoundedResultsLieBelowTheBound: an OK answer to BOUNDED. -/
theorem witness_bounded_ok : ∃ t, exec (.bounded 2) seed123 = .next t ∧ seed123.rsp = none ∧ ∃ r, t.rsp = some r ∧ r.status = .ok :=
  ⟨complete (advance seed123.gen) (maskDraw 2 (output seed123.gen)) seed123, by
    obtain ⟨h, _⟩ | ⟨_, h, _⟩ | ⟨_, _, _, e⟩ | ⟨_, _, h, _⟩ | ⟨_, _, h, _⟩ := execBounded_cases 2 seed123
    · exact absurd h (by decide)
    · exact absurd h (by decide)
    · exact e
    · exact absurd h (by decide)
    · exact absurd h (by decide), rfl, _, rfl, rfl⟩

/-- OneCommandAtATimeAtThePorts: an idle block with and without a presented word, a command with its response held, and a host
that takes it or does not. -/
theorem witness_ports :
    cmdReady { seed123 with host := [⟨false, some 5, false⟩] } = true ∧
    (hostNow { seed123 with host := [⟨false, some 5, false⟩] }).cmd = some 5 ∧
    (hostNow seed123).cmd = none ∧ (hostNow seed123).rst = false ∧ (hostNow seed123).rspReady = false ∧
    ({ seed123 with cmd := some 5, rsp := some ⟨.illegal, 0⟩ } : State).rsp = some ⟨.illegal, 0⟩ ∧
    (hostNow { seed123 with cmd := some 5, rsp := some ⟨.illegal, 0⟩, host := [⟨false, some 7, true⟩] }).rspReady = true ∧
    (hostNow { seed123 with cmd := some 5, rsp := some ⟨.illegal, 0⟩, host := [⟨false, some 7, true⟩] }).rst = false := by
  decide

/-- OneCommandAtATimeAtThePorts, third clause: a command in the block, and its step. -/
theorem witness_ports_step : ∃ t, step (blockWith 0 5 6 true) = .next t ∧ (blockWith 0 5 6 true).cmd = some 0 ∧
    (hostNow (blockWith 0 5 6 true)).rst = false :=
  ⟨_, (step_of_executing _ 0 rfl rfl rfl).trans (runCommand_of_illegal 0 (.reservedOpcode 0) _ (by decide)), rfl, rfl⟩

/-- WordsChangeOnlyWhenACommandCompletes: a SEED on an unseeded block changes the flag. -/
theorem witness_words_change : ∃ t, step (blockWith (encode (.seed 2)) 5 6 false) = .next t ∧
    (hostNow (blockWith (encode (.seed 2)) 5 6 false)).rst = false ∧
    t.seeded ≠ (blockWith (encode (.seed 2)) 5 6 false).seeded := by
  refine ⟨_, (step_of_executing _ _ rfl rfl rfl).trans (runCommand_of_instr _ (.seed 2) _ (by decide)), rfl, ?_⟩
  rw [complete_seeded, markSeeded_seeded]
  decide

/-- ErrorsHaveNoEffect: an illegal word in the block. -/
theorem witness_error : Executing (blockWith 0 5 6 true) 0 ∧ ∃ t, step (blockWith 0 5 6 true) = .next t ∧
    t.rsp = some ⟨.illegal, 0⟩ :=
  ⟨⟨rfl, rfl, rfl⟩, _,
    (step_of_executing _ 0 rfl rfl rfl).trans (runCommand_of_illegal 0 (.reservedOpcode 0) _ (by decide)), rfl⟩

/-- CommandsTouchOnlyTheirOwnState: a MIX, and a drawing command on an unseeded block. -/
theorem witness_frame : (∃ t, exec (.mix 1) seed123 = .next t) ∧ (∃ t, exec .f64 (block 5 6 false) = .next t) ∧
    drawing .f64 = true ∧ (block 5 6 false).seeded = false :=
  ⟨⟨_, execMix_eq 1 seed123⟩, ⟨fail .unseeded (block 5 6 false), rfl⟩, rfl, rfl⟩

/-- EveryOtherCommandIsAnsweredOnce: an idle block and a host that presents an illegal word, a BOUNDED 0, a NEXT64. -/
theorem witness_transaction : Idle { seed123 with host := transaction 0 3 ++ [HostInput.quiet] } ∧
    (∀ b, decode 0 = .instr (.bounded b) → ¬ RejectionPath b) ∧
    (∀ b, decode (encode .next64) = .instr (.bounded b) → ¬ RejectionPath b) ∧
    (∀ b, decode (encode (.bounded 0)) = .instr (.bounded b) → ¬ RejectionPath b) := by
  refine ⟨⟨rfl, rfl⟩, fun b h => ?_, fun b h => ?_, fun b h hp => ?_⟩
  · rw [show decode 0 = .illegal (.reservedOpcode 0) by decide] at h
    cases h
  · rw [show decode (encode .next64) = .instr .next64 by decide] at h
    cases h
  · rw [show decode (encode (.bounded 0)) = .instr (.bounded 0) by decide, Decoded.instr.injEq, Instr.bounded.injEq] at h
    subst h
    exact absurd hp.1 (by decide)

/-- FillBytesStoresLittleEndianDraws: hosts that fill 0, 8 and 11 bytes. -/
theorem witness_fill : Idle { seed123 with host := hostScript (SourceOp.fillBytes 11).commands } ∧
    ({ seed123 with host := hostScript (SourceOp.fillBytes 8).commands } : State).seeded = true ∧
    ({ seed123 with host := hostScript (SourceOp.fillBytes 0).commands } : State).host = [] := ⟨⟨rfl, rfl⟩, rfl, rfl⟩

/-- SeededHostSeesOnlyInvalidArgument: a host's `next_bounded_int32(-5)` on a seeded block. -/
theorem witness_host_error : Executing (blockWith (encode (.bounded 0xFFFFFFFB)) 5 6 true) (encode (.bounded 0xFFFFFFFB)) ∧
    ∃ t r, step (blockWith (encode (.bounded 0xFFFFFFFB)) 5 6 true) = .next t ∧ t.rsp = some r := by
  refine ⟨⟨rfl, rfl, rfl⟩, fail .invalidArgument (blockWith (encode (.bounded 0xFFFFFFFB)) 5 6 true), ⟨.invalidArgument, 0⟩,
    ?_, rfl⟩
  rw [step_of_executing _ _ rfl rfl rfl, runCommand_of_instr _ (.bounded 0xFFFFFFFB) _ (by decide)]
  rfl

/-- FirstFailedCheckGivesTheStatus: an illegal word that is also a non-positive BOUNDED on an unseeded block, `BOUNDED 0` and
NEXT64 on an unseeded block, MIX on an unseeded block. -/
theorem witness_checks : Executing (blockWith 0x110000000100000000 5 6 false) 0x110000000100000000 ∧
    legalWord 0x110000000100000000 = false ∧
    decode 0x110000000000000000 = .instr (.bounded 0) ∧ (0 : Word32).toInt ≤ 0 ∧
    decode 0x100000000000000000 = .instr .next64 ∧ drawing .next64 = true ∧
    decode 0x020000000000000000 = .instr (.mix 0) ∧ drawing (.mix 0) = false := ⟨⟨rfl, rfl, rfl⟩, by decide⟩

/-- FloatPatternsHoldTheStatedFields: the least and the greatest `m` of both widths, in their ranges. -/
theorem witness_float_ranges :
    2 ^ 0 ≤ (1 : BitVec 53).toNat ∧ (1 : BitVec 53).toNat < 2 ^ (0 + 1) ∧
    2 ^ 52 ≤ (0x1FFFFFFFFFFFFF : BitVec 53).toNat ∧ (0x1FFFFFFFFFFFFF : BitVec 53).toNat < 2 ^ (52 + 1) ∧
    2 ^ 23 ≤ (0xFFFFFF : BitVec 24).toNat ∧ (0xFFFFFF : BitVec 24).toNat < 2 ^ (23 + 1) := by decide

/-- NegativeOperandsAreTwosComplement: `-5`, and the most negative values of both widths. -/
theorem witness_negative : number 10 ['5'] = some 5 ∧
    number 10 ['9', '2', '2', '3', '3', '7', '2', '0', '3', '6', '8', '5', '4', '7', '7', '5', '8', '0', '8'] = some (2 ^ 63) ∧
    number 10 ['2', '1', '4', '7', '4', '8', '3', '6', '4', '8'] = some (2 ^ 31) := by decide

end Sys2Proof.Machine
end

namespace Sys2Proof

/-! ### The decoder, the encoder and the command table agree -/

/-- A command word's fields determine it (30_encoding.md R30). -/
theorem cmdWord_inj (op op' : BitVec 8) (a a' : Word64) : cmdWord op a = cmdWord op' a' ↔ op = op' ∧ a = a' := by
  constructor
  · intro h
    have hop := congrArg opField h
    have harg := congrArg argField h
    rw [opField_cmdWord, opField_cmdWord] at hop
    rw [argField_cmdWord, argField_cmdWord] at harg
    exact ⟨hop, harg⟩
  · rintro ⟨rfl, rfl⟩
    rfl

theorem cmdWord_and (op op' : BitVec 8) (a a' : Word64) :
    cmdWord op a &&& cmdWord op' a' = cmdWord (op &&& op') (a &&& a') := by
  apply BitVec.eq_of_getLsbD_eq
  intro k _
  rw [BitVec.getLsbD_and, getLsbD_cmdWord, getLsbD_cmdWord, getLsbD_cmdWord]
  split <;> rw [BitVec.getLsbD_and]

@[simp] theorem opField_encode (i : Instr) : opField (encode i) = i.opcode := opField_cmdWord _ _

@[simp] theorem argField_encode (i : Instr) : argField (encode i) = i.arg := argField_cmdWord _ _

theorem eq_encode_iff (w : CmdWord) (i : Instr) : w = encode i ↔ opField w = i.opcode ∧ argField w = i.arg := by
  rw [encode_eq_cmdWord, ← cmdWord_inj, cmdWord_fields]

@[simp] theorem argLow_encode_bounded (b : Word32) : argLow (encode (.bounded b)) = b := by
  rw [argLow_eq, argField_encode]
  apply BitVec.eq_of_getLsbD_eq
  intro k hk
  simp [Instr.arg, hk, show k < 64 by omega]

@[simp] theorem argHigh_encode_bounded (b : Word32) : argHigh (encode (.bounded b)) = 0 := by
  rw [argHigh_eq, argField_encode]
  apply BitVec.eq_of_getLsbD_eq
  intro k hk
  simp [Instr.arg]

/-- With `arg[63:32] = 0` the operand is the zero-extended bound (30_encoding.md R33). -/
theorem argField_of_argHigh_eq_zero (w : CmdWord) (h : argHigh w = 0) : argField w = (argLow w).setWidth 64 := by
  rw [argHigh_eq] at h
  rw [argLow_eq]
  apply BitVec.eq_of_getLsbD_eq
  intro k hk
  by_cases hlow : k < 32
  · simp [hlow, hk]
  · have hbit := congrArg (fun x : Word32 => x.getLsbD (k - 32)) h
    rw [BitVec.getLsbD_extractLsb'] at hbit
    simpa [hlow, hk, show k - 32 < 32 by omega, show 32 + (k - 32) = k by omega] using hbit

theorem decode_encode (i : Instr) : decode (encode i) = .instr i := by
  cases i <;> simp [decode, decodeN, decodeB, Instr.opcode, Instr.arg]

/-- A format N word that decodes carries operand 0. -/
theorem eq_of_decodeN_eq_instr (w : CmdWord) (i j : Instr) (h : decodeN w i = .instr j) : j = i ∧ argField w = 0 := by
  obtain ⟨ha, e⟩ | ⟨_, e⟩ := decodeN_cases w i
  · rw [e, Decoded.instr.injEq] at h
    exact ⟨h.symm, ha⟩
  · rw [e] at h
    cases h

/-- A format B word that decodes carries a zero-extended bound. -/
theorem eq_of_decodeB_eq_instr (w : CmdWord) (j : Instr) (h : decodeB w = .instr j) :
    j = .bounded (argLow w) ∧ argField w = (argLow w).setWidth 64 := by
  obtain ⟨ha, e⟩ | ⟨_, e⟩ := decodeB_cases w
  · rw [e, Decoded.instr.injEq] at h
    exact ⟨h.symm, argField_of_argHigh_eq_zero w ha⟩
  · rw [e] at h
    cases h

/-- A word that decodes is the word of its command (30_encoding.md R38). -/
theorem encode_of_decode (w : CmdWord) (i : Instr) (h : decode w = .instr i) : w = encode i := by
  rw [eq_encode_iff]
  unfold decode at h
  split_ifs at h with h1 h2 h3 h4 h5 h6
  · obtain rfl := Decoded.instr.inj h
    exact ⟨h1, rfl⟩
  · obtain rfl := Decoded.instr.inj h
    exact ⟨h2, rfl⟩
  · obtain ⟨rfl, ha⟩ := eq_of_decodeN_eq_instr w _ i h
    exact ⟨h3, ha⟩
  · obtain ⟨rfl, ha⟩ := eq_of_decodeB_eq_instr w i h
    exact ⟨h4, ha⟩
  · obtain ⟨rfl, ha⟩ := eq_of_decodeN_eq_instr w _ i h
    exact ⟨h5, ha⟩
  · obtain ⟨rfl, ha⟩ := eq_of_decodeN_eq_instr w _ i h
    exact ⟨h6, ha⟩

theorem decode_eq_instr_iff (w : CmdWord) (i : Instr) : decode w = .instr i ↔ w = encode i :=
  ⟨encode_of_decode w i, fun h => h ▸ decode_encode i⟩

/-- A row whose mask and value are written as fields fits a word field by field. -/
theorem fits_iff_fields (m : String) (opMask op : BitVec 8) (argMask arg : Word64) (w : CmdWord) :
    (OpcodeRow.mk m (cmdWord opMask argMask) (cmdWord op arg)).fits w = true ↔
      opField w &&& opMask = op ∧ argField w &&& argMask = arg := by
  rw [OpcodeRow.fits, beq_iff_eq]
  conv_lhs => rw [← cmdWord_fields w]
  rw [cmdWord_and, cmdWord_inj]

/-- `arg[63:32]` is what the operand mask of format B leaves (30_encoding.md R30, R35). -/
theorem argField_and_high_eq_zero_iff (w : CmdWord) : argField w &&& 0xFFFFFFFF00000000 = 0 ↔ argHigh w = 0 := by
  have hmask (k : Nat) : (0xFFFFFFFF00000000 : Word64).getLsbD k = decide (32 ≤ k ∧ k < 64) := by
    rw [show (0xFFFFFFFF00000000 : Word64) = BitVec.allOnes 32 ++ (0 : Word32) by decide, BitVec.getLsbD_append]
    by_cases hk : k < 32
    · simp [hk]
    · rw [if_neg hk, BitVec.getLsbD_allOnes, decide_eq_decide]
      omega
  rw [argHigh_eq]
  constructor <;> intro h <;> apply BitVec.eq_of_getLsbD_eq <;> intro k hk
  · have hbit := congrArg (fun x : Word64 => x.getLsbD (32 + k)) h
    rw [BitVec.getLsbD_and, hmask] at hbit
    simpa [hk, show 32 + k < 64 by omega] using hbit
  · rw [BitVec.getLsbD_and, hmask]
    by_cases hlow : k < 32
    · simp [show ¬ 32 ≤ k by omega]
    · have hbit := congrArg (fun x : Word32 => x.getLsbD (k - 32)) h
      rw [BitVec.getLsbD_extractLsb'] at hbit
      simpa [hk, hlow, show k - 32 < 32 by omega, show 32 + (k - 32) = k by omega] using hbit

/-- The table read field by field: an assigned opcode whose reserved operand bits are 0 (30_encoding.md R32, R35, R38). -/
theorem legalWord_iff_fields (w : CmdWord) : legalWord w = true ↔
    opField w = 0x01 ∨ opField w = 0x02 ∨ (opField w = 0x10 ∧ argField w = 0) ∨
      (opField w = 0x11 ∧ argHigh w = 0) ∨ (opField w = 0x12 ∧ argField w = 0) ∨
      (opField w = 0x13 ∧ argField w = 0) := by
  have hrows : opcodeTable =
      [ ⟨"SEED",    cmdWord 0xFF 0, cmdWord 0x01 0⟩,
        ⟨"MIX",     cmdWord 0xFF 0, cmdWord 0x02 0⟩,
        ⟨"NEXT64",  cmdWord 0xFF (BitVec.allOnes 64), cmdWord 0x10 0⟩,
        ⟨"BOUNDED", cmdWord 0xFF 0xFFFFFFFF00000000, cmdWord 0x11 0⟩,
        ⟨"F64",     cmdWord 0xFF (BitVec.allOnes 64), cmdWord 0x12 0⟩,
        ⟨"F32",     cmdWord 0xFF (BitVec.allOnes 64), cmdWord 0x13 0⟩ ] := by decide
  have hop : opField w &&& 0xFF = opField w := BitVec.and_allOnes
  rw [legalWord, hrows]
  simp only [List.any_cons, List.any_nil, Bool.or_false, Bool.or_eq_true, fits_iff_fields, hop, BitVec.and_allOnes,
    argField_and_high_eq_zero_iff]
  simp

/-- The decoder reads a command from exactly the legal words (30_encoding.md R38). -/
theorem legalWord_iff_decode (w : CmdWord) : legalWord w = true ↔ ∃ i, decode w = .instr i := by
  rw [legalWord_iff_fields]
  constructor
  · rintro (h | h | ⟨h, ha⟩ | ⟨h, ha⟩ | ⟨h, ha⟩ | ⟨h, ha⟩) <;> simp [decode, decodeN, decodeB, *]
  · rintro ⟨i, hi⟩
    obtain rfl := encode_of_decode w i hi
    cases i <;> simp [Instr.opcode, Instr.arg]

theorem legalWord_eq_false_iff_decode (w : CmdWord) : legalWord w = false ↔ ∃ why, decode w = .illegal why := by
  rw [← Bool.not_eq_true, legalWord_iff_decode]
  cases decode w <;> simp

end Sys2Proof

namespace Sys2Proof.Machine

/-! ### The generator never reaches (0, 0) -/

/-- A right shift by at least one bit never gives a non-zero word back. -/
theorem eq_zero_of_eq_ushiftRight {n : Nat} (x : BitVec n) (k : Nat) (hk : k ≠ 0) (h : x = x >>> k) : x = 0 := by
  by_contra hx
  have hpos : 0 < x.toNat := Nat.pos_of_ne_zero (fun e => hx (BitVec.eq_of_toNat_eq (by simpa using e)))
  have hdiv : x.toNat = x.toNat / 2 ^ k := by
    conv_lhs => rw [h]
    rw [BitVec.toNat_ushiftRight, Nat.shiftRight_eq_div_pow]
  have hlt := Nat.div_lt_self hpos (Nat.one_lt_two_pow hk)
  omega

/-- Nor does a left shift: each bit would equal one `k` places below it, and the lowest `k` bits are 0. -/
theorem eq_zero_of_eq_shiftLeft {n : Nat} (x : BitVec n) (k : Nat) (hk : k ≠ 0) (h : x = x <<< k) : x = 0 := by
  have hbits : ∀ i, x.getLsbD i = false := by
    intro i
    induction i using Nat.strong_induction_on with
    | _ i ih =>
      rw [h, BitVec.getLsbD_shiftLeft]
      by_cases hi : i < k
      · simp [hi]
      · simp [ih (i - k) (by omega)]
  exact BitVec.eq_of_getLsbD_eq (fun i _ => by simpa using hbits i)

theorem advance_s1 (g : Gen) : (advance g).s1 =
    ((g.s0 ^^^ (g.s0 <<< 23)) ^^^ ((g.s0 ^^^ (g.s0 <<< 23)) >>> 17)) ^^^ g.s1 ^^^ (g.s1 >>> 26) := (rfl)

/-- The transition maps no pair but (0, 0) to (0, 0) (10_state.md R12). -/
theorem eq_zero_of_advance_eq_zero (g : Gen) (h : advance g = ⟨0, 0⟩) : g = ⟨0, 0⟩ := by
  have h1 : g.s1 = 0 := by rw [← advance_s0, h]
  have hx := congrArg Gen.s1 h
  rw [advance_s1, h1] at hx
  have hx1 : g.s0 ^^^ (g.s0 <<< 23) = 0 :=
    eq_zero_of_eq_ushiftRight _ 17 (by decide) (BitVec.xor_eq_zero_iff.1 (by simpa using hx))
  have h0 : g.s0 = 0 := eq_zero_of_eq_shiftLeft _ 23 (by decide) (BitVec.xor_eq_zero_iff.1 hx1)
  cases g
  exact congrArg₂ Gen.mk h0 h1

theorem guardZero_ne_zero (g : Gen) : guardZero g ≠ ⟨0, 0⟩ := by
  unfold guardZero
  split
  · decide
  · assumption

theorem expand_ne_zero (v : Word64) : expand v ≠ ⟨0, 0⟩ := guardZero_ne_zero _

/-- The pairs a seeded block can hold: some seed's expansion after some draws (40_seeding.md R57, 41_generator.md R65). -/
def FromSeed (g : Gen) : Prop := ∃ v n, g = genAfter (expand v) n

theorem fromSeed_expand (v : Word64) : FromSeed (expand v) := ⟨v, 0, (genAfter_zero _).symm⟩

theorem FromSeed.genAfter {g : Gen} (h : FromSeed g) (m : Nat) : FromSeed (genAfter g m) := by
  obtain ⟨v, n, rfl⟩ := h
  exact ⟨v, m + n, (genAfter_add _ m n).symm⟩

theorem FromSeed.advance {g : Gen} (h : FromSeed g) : FromSeed (advance g) := by
  rw [← genAfter_one]
  exact h.genAfter 1

theorem genAfter_ne_zero {g : Gen} (h : g ≠ ⟨0, 0⟩) (n : Nat) : genAfter g n ≠ ⟨0, 0⟩ := by
  induction n with
  | zero => rwa [genAfter_zero]
  | succ n ih =>
    rw [genAfter_succ]
    exact fun h0 => ih (eq_zero_of_advance_eq_zero _ h0)

/-- A pair reached from a seed is never (0, 0) (10_state.md R11). -/
theorem FromSeed.ne_zero {g : Gen} (h : FromSeed g) : g ≠ ⟨0, 0⟩ := by
  obtain ⟨v, n, rfl⟩ := h
  exact genAfter_ne_zero (expand_ne_zero v) n

/-! ### What the results of the commands can be -/

theorem toInt_eq_toNat_of_pos (b : Word32) (h : 0 < b.toInt) : b.toInt = b.toNat := by
  have hb := ((toInt_pos_iff b).1 h).2
  exact BitVec.toInt_eq_toNat_of_lt (by omega)

/-- The mask path answers a number below the bound (42_bounded.md R72, R77). -/
theorem maskDraw_lt (b : Word32) (w : Word64) (h : 0 < b.toInt) : ((maskDraw b w).toNat : Int) < b.toInt := by
  have hb := (toInt_pos_iff b).1 h
  have hmask : (w &&& zext64 (b - 1)).toNat ≤ b.toNat - 1 := by
    rw [BitVec.toNat_and, zext64, BitVec.toNat_setWidth, pred_toNat b hb.1, Nat.mod_eq_of_lt (by omega)]
    exact Nat.and_le_right
  have hmod : (maskDraw b w).toNat ≤ (w &&& zext64 (b - 1)).toNat := by
    rw [maskDraw, zext64, trunc32, BitVec.toNat_setWidth, BitVec.toNat_setWidth]
    exact (Nat.mod_le _ _).trans (Nat.mod_le _ _)
  rw [toInt_eq_toNat_of_pos b h]
  omega

/-- The rejection path answers a number below the bound (42_bounded.md R73, R77). -/
theorem residue_lt (b : Word32) (w : Word64) (h : 0 < b.toInt) : ((residue b w).toNat : Int) < b.toInt := by
  have hmod := Nat.mod_lt (w.toNat / 2 % 2 ^ 31) ((toInt_pos_iff b).1 h).1
  have hle := Nat.mod_le (w.toNat / 2 % 2 ^ 31 % b.toNat) (2 ^ 64)
  rw [toInt_eq_toNat_of_pos b h, residue_eq, BitVec.toNat_ofNat]
  omega

/-- A significand `m` shifted up to its leading 1 at bit `F`, scaled by its exponent, is `m * 2^-(F + 1)` (43_float.md R81,
R84). -/
theorem significand_value (F k m : ℕ) (hk : k ≤ F) (hlo : 2 ^ F ≤ m * 2 ^ (F - k)) :
    (1 + ((m * 2 ^ (F - k) - 2 ^ F : ℕ) : ℚ) / 2 ^ F) * (2 : ℚ) ^ ((k : ℤ) - (F + 1 : ℕ)) = m / 2 ^ (F + 1) := by
  have hF : (2 : ℚ) ^ F = 2 ^ (F - k) * 2 ^ k := by rw [← pow_add, Nat.sub_add_cancel hk]
  rw [Nat.cast_sub hlo, zpow_sub₀ (by norm_num), zpow_natCast, zpow_natCast]
  push_cast
  field_simp
  rw [hF]
  ring

/-- A positive normal binary64 pattern by its exponent and fraction fields (43_float.md R81). -/
theorem binary64Value_of_fields (p : Word64) (e f : ℕ) (hp : p.toNat = e * 2 ^ 52 + f) (hf : f < 2 ^ 52) (h1 : 1 ≤ e)
    (hmax : e ≤ 2046) : binary64Value p = some ((1 + (f : ℚ) / 2 ^ 52) * (2 : ℚ) ^ ((e : ℤ) - 1023)) := by
  have hsign : p.getLsbD 63 = false := Nat.testBit_eq_false_of_lt (by omega)
  have hexp : (p.extractLsb' 52 11).toNat = e := by
    rw [BitVec.extractLsb'_toNat, Nat.shiftRight_eq_div_pow]
    omega
  have hfrac : (p.extractLsb' 0 52).toNat = f := by
    rw [BitVec.extractLsb'_toNat, Nat.shiftRight_zero]
    omega
  have hne : p ≠ 0 := fun h0 => by
    have : p.toNat = 0 := by simp [h0]
    omega
  unfold binary64Value
  rw [hsign, hexp, hfrac, if_neg hne, if_pos ⟨h1, hmax⟩]
  simp

/-- A positive normal binary32 pattern by its exponent and fraction fields (43_float.md R84). -/
theorem binary32Value_of_fields (p : Word32) (e f : ℕ) (hp : p.toNat = e * 2 ^ 23 + f) (hf : f < 2 ^ 23) (h1 : 1 ≤ e)
    (hmax : e ≤ 254) : binary32Value p = some ((1 + (f : ℚ) / 2 ^ 23) * (2 : ℚ) ^ ((e : ℤ) - 127)) := by
  have hsign : p.getLsbD 31 = false := Nat.testBit_eq_false_of_lt (by omega)
  have hexp : (p.extractLsb' 23 8).toNat = e := by
    rw [BitVec.extractLsb'_toNat, Nat.shiftRight_eq_div_pow]
    omega
  have hfrac : (p.extractLsb' 0 23).toNat = f := by
    rw [BitVec.extractLsb'_toNat, Nat.shiftRight_zero]
    omega
  have hne : p ≠ 0 := fun h0 => by
    have : p.toNat = 0 := by simp [h0]
    omega
  unfold binary32Value
  rw [hsign, hexp, hfrac, if_neg hne, if_pos ⟨h1, hmax⟩]
  simp

/-- The binary64 pattern of `m` denotes `m * 2^-53` (43_float.md R81). -/
theorem binary64Value_f64bits (m : BitVec 53) : binary64Value (f64bits m) = some ((m.toNat : ℚ) / 2 ^ 53) := by
  by_cases hm : m = 0
  · subst hm
    simp [binary64Value, f64bits]
  · have hm0 : m.toNat ≠ 0 := fun e => hm (BitVec.eq_of_toNat_eq (by simpa using e))
    have hk : topBit m.toNat 53 ≤ 52 := Nat.le_of_lt_succ (topBit_spec m.toNat 53 hm0 m.isLt).1
    obtain ⟨hp, hlo, hhi⟩ := f64bits_toNat m hm
    have hexp : ((970 + topBit m.toNat 53 : ℕ) : ℤ) - 1023 = (topBit m.toNat 53 : ℤ) - (52 + 1 : ℕ) := by
      push_cast
      ring
    rw [binary64Value_of_fields _ _ _ hp (by omega) (by omega) (by omega), hexp, significand_value 52 _ _ hk hlo]

/-- The binary32 pattern of `m` denotes `m * 2^-24` (43_float.md R84). -/
theorem binary32Value_f32bits (m : BitVec 24) : binary32Value (f32bits m) = some ((m.toNat : ℚ) / 2 ^ 24) := by
  by_cases hm : m = 0
  · subst hm
    simp [binary32Value, f32bits]
  · have hm0 : m.toNat ≠ 0 := fun e => hm (BitVec.eq_of_toNat_eq (by simpa using e))
    have hk : topBit m.toNat 24 ≤ 23 := Nat.le_of_lt_succ (topBit_spec m.toNat 24 hm0 m.isLt).1
    obtain ⟨hp, hlo, hhi⟩ := f32bits_toNat m hm
    have hexp : ((103 + topBit m.toNat 24 : ℕ) : ℤ) - 127 = (topBit m.toNat 24 : ℤ) - (23 + 1 : ℕ) := by
      push_cast
      ring
    rw [binary32Value_of_fields _ _ _ hp (by omega) (by omega) (by omega), hexp, significand_value 23 _ _ hk hlo]

/-- `m * 2^-n` with `m < 2^n` lies in [0, 1) (43_float.md R80, R83). -/
theorem fraction_range {n : Nat} (m : BitVec n) : (0 : ℚ) ≤ (m.toNat : ℚ) / 2 ^ n ∧ (m.toNat : ℚ) / 2 ^ n < 1 := by
  have hlt : (m.toNat : ℚ) < 2 ^ n := by exact_mod_cast m.isLt
  exact ⟨by positivity, (div_lt_one (by positivity)).2 hlt⟩

theorem okResult_f64 (w : Word64) : OkResult (.instr .f64) (f64bits (top53 w)) :=
  ⟨_, binary64Value_f64bits _, fraction_range _⟩

theorem okResult_f32 (w : Word64) : OkResult (.instr .f32) (zext64 (f32bits (top24 w))) :=
  ⟨_, rfl, _, binary32Value_f32bits _, fraction_range _⟩

/-! ### Which responses answer which words -/

theorem answers_illegal (w : CmdWord) (why : Illegal) (hd : decode w = .illegal why) : Answers w ⟨.illegal, 0⟩ where
  zero_unless_ok _ := rfl
  illegal_iff := by simp [(legalWord_eq_false_iff_decode w).2 ⟨why, hd⟩]
  invalid_iff := by simp [hd]
  unseeded_draws := by simp
  ok_result := by simp

theorem legalWord_of_decode (w : CmdWord) (i : Instr) (hd : decode w = .instr i) : legalWord w = true :=
  (legalWord_iff_decode w).2 ⟨i, hd⟩

theorem answers_invalidArgument (w : CmdWord) (b : Word32) (hd : decode w = .instr (.bounded b)) (hb : b.toInt ≤ 0) :
    Answers w ⟨.invalidArgument, 0⟩ where
  zero_unless_ok _ := rfl
  illegal_iff := by simp [legalWord_of_decode w _ hd]
  invalid_iff := by simp [hd, hb]
  unseeded_draws := by simp
  ok_result := by simp

/-- The argument check of a command passes (42_bounded.md R71): a bound, if it has one, is positive. -/
def PassesArgumentCheck (i : Instr) : Prop := ∀ b, i = .bounded b → 0 < b.toInt

theorem not_invalid_of_passes (w : CmdWord) (i : Instr) (hd : decode w = .instr i) (hi : PassesArgumentCheck i) :
    ¬ ∃ b, decode w = .instr (.bounded b) ∧ b.toInt ≤ 0 := by
  rintro ⟨b, hb, hle⟩
  rw [hd, Decoded.instr.injEq] at hb
  have := hi b hb
  omega

theorem answers_unseeded (w : CmdWord) (i : Instr) (hd : decode w = .instr i) (hi : PassesArgumentCheck i)
    (hdraw : drawing i = true) : Answers w ⟨.unseeded, 0⟩ where
  zero_unless_ok _ := rfl
  illegal_iff := by simp [legalWord_of_decode w _ hd]
  invalid_iff := by simp [not_invalid_of_passes w i hd hi]
  unseeded_draws _ := ⟨i, hd, hdraw⟩
  ok_result := by simp

theorem answers_ok (w : CmdWord) (i : Instr) (v : Word64) (hd : decode w = .instr i) (hi : PassesArgumentCheck i)
    (hv : OkResult (.instr i) v) : Answers w ⟨.ok, v⟩ where
  zero_unless_ok h := absurd rfl h
  illegal_iff := by simp [legalWord_of_decode w _ hd]
  invalid_iff := by simp [not_invalid_of_passes w i hd hi]
  unseeded_draws := by simp
  ok_result _ := hd ▸ hv

/-! ### What a command leaves behind, by what it does to the state -/

/-- The four things a command can do: replace the words by a seed's expansion, answer and touch nothing else, complete a draw,
or keep a rejected draw. -/
theorem exec_next_cases (i : Instr) (s t : State) (h : exec i s = .next t) :
    (∃ v, i = .seed v ∧ t = complete (expand v) 0 (markSeeded s)) ∨
    (((∃ z, i = .mix z) ∨ drawing i = true) ∧ ∃ st v, t = respond st v s) ∨
    (drawing i = true ∧ s.seeded = true ∧
      ∃ g v, (g = s.gen ∨ ∃ b, i = .bounded b ∧ g = working s) ∧ t = complete (advance g) v s) ∨
    (∃ b, i = .bounded b ∧ s.seeded = true ∧ RejectionPath b ∧ accepts b (output (working s)) = false ∧
      t = holdDraw (advance (working s)) s) := by
  have drawing_of (hs : ∀ v, i ≠ .seed v) (hm : ∀ z, i ≠ .mix z) : drawing i = true := by
    cases i with
    | seed v => exact absurd rfl (hs v)
    | mix z => exact absurd rfl (hm z)
    | next64 | bounded _ | f64 | f32 => rfl
  obtain ⟨v, hi, e⟩ | ⟨z, hi, e⟩ | ⟨hs, h1, h2, v, e⟩ | ⟨b, hi, hs, hp, h2, ha, e⟩ | ⟨b, hi, hs, hp, h2, ha, e⟩ |
    ⟨h1, h2, ⟨_, e⟩ | ⟨_, _, _, e⟩⟩ := exec_cases i s <;>
    rw [h, Host.Outcome.next.injEq] at e
  · exact .inl ⟨v, hi, e⟩
  · exact .inr (.inl ⟨.inl ⟨z, hi⟩, _, _, e⟩)
  · exact .inr (.inr (.inl ⟨drawing_of h1 h2, hs, _, v, .inl rfl, e⟩))
  · exact .inr (.inr (.inl ⟨by rw [hi, drawing], hs, _, _, .inr ⟨b, hi, rfl⟩, e⟩))
  · exact .inr (.inr (.inr ⟨b, hi, hs, (rejectionPath_iff b).2 ⟨hp, h2⟩, ha, e⟩))
  · exact .inr (.inl ⟨.inr (drawing_of h1 h2), _, _, e⟩)
  · exact .inr (.inl ⟨.inr (drawing_of h1 h2), _, _, e⟩)

/-- Settles O32, by the four things a command can do. -/
theorem commandsTouchOnlyTheirOwnState : Obligations.CommandsTouchOnlyTheirOwnState := by
  intro i s t h
  obtain ⟨hcmd, hhost, htrace⟩ := exec_keeps_ports i s t h
  refine ⟨hcmd, hhost, htrace, ?_⟩
  obtain ⟨v, rfl, rfl⟩ | ⟨-, st, v, rfl⟩ | ⟨hd, hs, g, v, -, rfl⟩ | ⟨b, rfl, hs, -, -, rfl⟩ := exec_next_cases i s t h
  · exact ⟨.inr ⟨v, rfl⟩, by simp [drawing], by simp⟩
  · simp
  · refine ⟨by simp, ?_, by simp⟩
    rintro (⟨z, rfl⟩ | ⟨-, hu⟩)
    · simp [drawing] at hd
    · simp [hs] at hu
  · simp

/-! ### The ports leave the words and the flag alone -/

@[simp] theorem accept_gen (c : Option CmdWord) (s : State) : (accept c s).gen = s.gen := by
  obtain ⟨-, e⟩ | ⟨w, -, e⟩ := accept_cases c s <;> rw [e]
  rfl

@[simp] theorem accept_seeded (c : Option CmdWord) (s : State) : (accept c s).seeded = s.seeded := by
  obtain ⟨-, e⟩ | ⟨w, -, e⟩ := accept_cases c s <;> rw [e]

/-- Delivery takes the response and leaves the block idle, or holds everything. -/
theorem deliver_cases (ready : Bool) (w : CmdWord) (r : Response) (s : State) :
    (ready = false ∧ deliver ready w r s = s) ∨
      (ready = true ∧
        deliver ready w r s = { s with cmd := none, work := none, rsp := none, trace := s.trace ++ [(w, r)] }) := by
  cases ready with
  | false => exact .inl ⟨rfl, deliver_waiting w r s⟩
  | true => exact .inr ⟨rfl, deliver_ready w r s⟩

@[simp] theorem deliver_gen (ready : Bool) (w : CmdWord) (r : Response) (s : State) :
    (deliver ready w r s).gen = s.gen := by
  obtain ⟨-, e⟩ | ⟨-, e⟩ := deliver_cases ready w r s <;> rw [e]
  rfl

@[simp] theorem deliver_seeded (ready : Bool) (w : CmdWord) (r : Response) (s : State) :
    (deliver ready w r s).seeded = s.seeded := by
  obtain ⟨-, e⟩ | ⟨-, e⟩ := deliver_cases ready w r s <;> rw [e]

/-- The next draw starts from the words, or from those the rejected draws of the command left. -/
theorem working_cases (s : State) :
    (s.work = none ∧ working s = s.gen) ∨ (∃ g, s.work = some g ∧ working s = g) := by
  cases h : s.work with
  | none => exact .inl ⟨rfl, working_of_none s h⟩
  | some g => exact .inr ⟨g, rfl, working_of_some s g h⟩

/-- A step without reset that changes the words or the flag executes a command. -/
theorem executes_of_words_change (s t : State) (hrst : (hostNow s).rst = false) (h : step s = .next t)
    (hchange : t.gen ≠ s.gen ∨ t.seeded ≠ s.seeded) :
    ∃ w i, Executing s w ∧ decode w = .instr i ∧ exec i (hostLater s) = .next t := by
  obtain ⟨hr, -⟩ | ⟨-, -, e⟩ | ⟨-, w, i, hc, hn, hd, e⟩ | ⟨-, w, why, -, -, -, e⟩ | ⟨-, w, r, -, -, e⟩ := step_cases s
  · simp [hr] at hrst
  case inr.inr.inl => exact ⟨w, i, ⟨hc, hn, hrst⟩, hd, by rw [← e, h]⟩
  all_goals
    rw [h, Host.Outcome.next.injEq] at e
    simp [e] at hchange

/-- Settles O30: only the execution of a command writes the words or the flag, and only a SEED or a completed draw does. -/
theorem wordsChangeOnlyWhenACommandCompletes : Obligations.WordsChangeOnlyWhenACommandCompletes := by
  intro s t hrst h hchange
  obtain ⟨w, i, hw, hd, he⟩ := executes_of_words_change s t hrst h hchange
  obtain ⟨v, rfl, rfl⟩ | ⟨-, st, v, rfl⟩ | ⟨hdr, hs, g, v, hg, rfl⟩ | ⟨b, -, -, -, -, rfl⟩ :=
    exec_next_cases i (hostLater s) t he
  · exact ⟨w, _, 0, hw, hd, by simp, by simp, .inl ⟨v, rfl, by simp⟩⟩
  · simp at hchange
  · rw [hostLater_seeded] at hs
    refine ⟨w, i, v, hw, hd, by simp, by simpa using hs, .inr ⟨hdr, hs, ?_⟩⟩
    rw [complete_gen, genAfter_one]
    obtain rfl | ⟨b, hb, rfl⟩ := hg
    · exact .inl (by rw [hostLater_gen])
    · rw [working_hostLater]
      obtain ⟨-, e⟩ | ⟨g, hg, e⟩ := working_cases s <;> rw [e]
      · exact .inl rfl
      · exact .inr ⟨b, g, hb, hg, by rw [genAfter_one]⟩
  · simp at hchange

/-! ### The invariant -/

/-- The invariant in the form it is proved in: a pair reached from a seed is not (0, 0), so `nonzero` comes with `from_seed`. -/
theorem inv_of_fromSeed {s : State} (hgen : s.seeded = true → FromSeed s.gen)
    (hrsp : ∀ r, s.rsp = some r → ∃ w, s.cmd = some w ∧ Answers w r)
    (hwork : ∀ g, s.work = some g → s.seeded = true ∧ s.rsp = none ∧
      ∃ b n, s.cmd = some (encode (.bounded b)) ∧ RejectionPath b ∧ 0 < n ∧ g = genAfter s.gen n ∧
        ∀ k < n, accepts b (rawAfter s.gen k) = false)
    (htrace : ∀ p ∈ s.trace, Answers p.1 p.2) : Inv s :=
  ⟨hgen, fun hs => (hgen hs).ne_zero, hrsp, hwork, htrace⟩

/-- A block that holds neither a response nor draws owes its invariant to its words and to what it has delivered. -/
theorem inv_of_nothing_held {s : State} (hgen : s.seeded = true → FromSeed s.gen) (hrsp : s.rsp = none)
    (hwork : s.work = none) (htrace : ∀ p ∈ s.trace, Answers p.1 p.2) : Inv s :=
  inv_of_fromSeed hgen (by simp [hrsp]) (by simp [hwork]) htrace

/-- Settles O19: at reset the block is unseeded, holds nothing and has delivered nothing. -/
theorem invariantHoldsAtReset : Obligations.InvariantHoldsAtReset :=
  inv_of_nothing_held (by simp [State.reset]) rfl rfl (by simp [State.reset])

theorem inv_resetBlock (s : State) : Inv (resetBlock s) :=
  inv_of_nothing_held (by simp) (by simp) (by simp) (by simp)

theorem Inv.fromSeed {s : State} (hi : Inv s) : s.seeded = true → FromSeed s.gen := hi.from_seed

theorem Inv.hostLater {s : State} (hi : Inv s) : Inv (hostLater s) :=
  inv_of_fromSeed hi.from_seed hi.rsp_answers hi.work_rejected hi.trace_answers

/-- An idle block keeps the invariant whether or not it accepts a word. -/
theorem Inv.accept {s : State} (hi : Inv s) (c : Option CmdWord) : Inv (accept c s) := by
  obtain ⟨-, e⟩ | ⟨w, -, e⟩ := accept_cases c s <;> rw [e]
  · exact hi
  · exact inv_of_nothing_held hi.from_seed rfl rfl hi.trace_answers

theorem Inv.deliver {s : State} (hi : Inv s) (ready : Bool) {w : CmdWord} {r : Response} (hc : s.cmd = some w)
    (hr : s.rsp = some r) : Inv (deliver ready w r s) := by
  obtain ⟨-, e⟩ | ⟨-, e⟩ := deliver_cases ready w r s <;> rw [e]
  · exact hi
  · have hans : Answers w r := by
      obtain ⟨w', hc', ha⟩ := hi.rsp_answers r hr
      rw [hc, Option.some.injEq] at hc'
      rwa [hc']
    refine inv_of_nothing_held hi.from_seed rfl rfl (fun p hp => ?_)
    obtain hp | hp := List.mem_append.1 hp
    · exact hi.trace_answers p hp
    · rw [List.mem_singleton.1 hp]
      exact hans

/-- A block whose command has just been answered holds no draws, and its response must answer the word. -/
theorem inv_of_answered {s : State} {w : CmdWord} {r : Response} (hgen : s.seeded = true → FromSeed s.gen)
    (hwork : s.work = none) (hc : s.cmd = some w) (hr : s.rsp = some r) (hans : Answers w r)
    (htrace : ∀ p ∈ s.trace, Answers p.1 p.2) : Inv s :=
  inv_of_fromSeed hgen (by simpa [hc, hr] using hans) (by simp [hwork]) htrace

/-- The words the next draw starts from, when every draw so far was rejected by the BOUNDED in the block. -/
theorem Inv.working_rejected {s : State} (hi : Inv s) {b : Word32} (hc : s.cmd = some (encode (.bounded b))) :
    ∃ n, working s = genAfter s.gen n ∧ ∀ k < n, accepts b (rawAfter s.gen k) = false := by
  obtain ⟨-, e⟩ | ⟨g, hg, e⟩ := working_cases s
  · exact ⟨0, by rw [e, genAfter_zero], by simp⟩
  · obtain ⟨-, -, b', n, hc', -, -, hgn, hrej⟩ := hi.work_rejected g hg
    rw [hc, Option.some.injEq, ← decode_eq_instr_iff, decode_encode, Decoded.instr.injEq, Instr.bounded.injEq] at hc'
    subst hc'
    exact ⟨n, by rw [e, hgn], hrej⟩

/-- A rejected draw is one more draw of the BOUNDED in the block, all rejected (42_bounded.md R73, R75). -/
theorem Inv.holdDraw {s : State} (hi : Inv s) {b : Word32} (hc : s.cmd = some (encode (.bounded b))) (hr : s.rsp = none)
    (hs : s.seeded = true) (hb : RejectionPath b) (ha : accepts b (output (working s)) = false) :
    Inv (holdDraw (advance (working s)) s) := by
  obtain ⟨n, hn, hrej⟩ := hi.working_rejected hc
  refine inv_of_fromSeed (by simpa using hi.fromSeed) (by simp [hr]) (fun g hg => ?_) (by simpa using hi.trace_answers)
  rw [holdDraw_work, Option.some.injEq] at hg
  simp only [holdDraw_seeded, holdDraw_rsp, holdDraw_cmd, holdDraw_gen]
  refine ⟨hs, hr, b, n + 1, hc, hb, n.succ_pos, by rw [genAfter_succ, ← hn, hg], fun k hk => ?_⟩
  obtain hk | rfl := Nat.lt_succ_iff_lt_or_eq.1 hk
  · exact hrej k hk
  · rwa [rawAfter, ← hn]

/-! ### Every command answers its own word -/

theorem answers_of_complete {w : CmdWord} {g : Gen} {v : Word64} {s : State} (hans : Answers w ⟨.ok, v⟩) :
    ∀ r, (complete g v s).rsp = some r → Answers w r := by
  simpa using hans

theorem answers_of_fail {w : CmdWord} {st : Status} {s : State} (hans : Answers w ⟨st, 0⟩) :
    ∀ r, (fail st s).rsp = some r → Answers w r := by
  simpa using hans

/-- A command of one draw answers its result, or UNSEEDED. -/
theorem answers_of_drawOnce {w : CmdWord} {i : Instr} {f : Word64 → Word64} {s : State} (hd : decode w = .instr i)
    (hi : PassesArgumentCheck i) (hdraw : drawing i = true) (hv : OkResult (.instr i) (f (output s.gen))) :
    ∀ r, (requireSeeded s (drawOnce f s)).rsp = some r → Answers w r := by
  obtain ⟨-, e⟩ | ⟨-, e⟩ := drawOnce_cases f s <;> rw [e]
  · exact answers_of_complete (answers_ok w i _ hd hi hv)
  · exact answers_of_fail (answers_unseeded w i hd hi hdraw)

theorem answers_of_execBounded {w : CmdWord} {b : Word32} {s t : State} (hd : decode w = .instr (.bounded b))
    (hn : s.rsp = none) (h : execBounded b s = .next t) : ∀ r, t.rsp = some r → Answers w r := by
  have passes (hb : 0 < b.toInt) : PassesArgumentCheck (.bounded b) := by
    rintro _ ⟨⟩
    exact hb
  obtain ⟨hb, e⟩ | ⟨hb, -, e⟩ | ⟨hb, -, -, e⟩ | ⟨hb, -, -, -, e⟩ | ⟨-, -, -, -, e⟩ := execBounded_cases b s <;>
    rw [h, Host.Outcome.next.injEq] at e <;> rw [e]
  · exact answers_of_fail (answers_invalidArgument w b hd hb)
  · exact answers_of_fail (answers_unseeded w _ hd (passes hb) (by rw [drawing]))
  · exact answers_of_complete (answers_ok w _ _ hd (passes hb) (maskDraw_lt b _ hb))
  · exact answers_of_complete (answers_ok w _ _ hd (passes hb) (residue_lt b _ hb))
  · simp [hn]

/-- Whatever a command answers is a legal answer to its word (30_encoding.md R37; 60_exceptions.md R100 to R104). -/
theorem answers_of_exec {w : CmdWord} {i : Instr} {s t : State} (hd : decode w = .instr i) (hn : s.rsp = none)
    (h : exec i s = .next t) : ∀ r, t.rsp = some r → Answers w r := by
  cases i with
  | seed v =>
    rw [exec, execSeed_eq, Host.Outcome.next.injEq] at h
    rw [← h]
    exact answers_of_complete (answers_ok w _ 0 hd (by simp [PassesArgumentCheck]) (by rw [OkResult]))
  | mix z =>
    rw [exec, execMix_eq, Host.Outcome.next.injEq] at h
    rw [← h]
    simpa using answers_ok w _ (mix z) hd (by simp [PassesArgumentCheck]) (by rw [OkResult])
  | next64 =>
    rw [exec, execNext64, Host.Outcome.next.injEq] at h
    rw [← h]
    exact answers_of_drawOnce hd (by simp [PassesArgumentCheck]) (by rw [drawing]) trivial
  | bounded b =>
    rw [exec] at h
    exact answers_of_execBounded hd hn h
  | f64 =>
    rw [exec, execF64, Host.Outcome.next.injEq] at h
    rw [← h]
    exact answers_of_drawOnce hd (by simp [PassesArgumentCheck]) (by rw [drawing]) (okResult_f64 _)
  | f32 =>
    rw [exec, execF32, Host.Outcome.next.injEq] at h
    rw [← h]
    exact answers_of_drawOnce hd (by simp [PassesArgumentCheck]) (by rw [drawing]) (okResult_f32 _)

/-! ### Every step keeps the invariant -/

/-- The words the next draw starts from are some draws after `s0`, `s1`. -/
theorem Inv.working_fromSeed {s : State} (hi : Inv s) (hs : s.seeded = true) : FromSeed (working s) := by
  obtain ⟨-, e⟩ | ⟨g, hg, e⟩ := working_cases s <;> rw [e]
  · exact hi.fromSeed hs
  · obtain ⟨-, -, _, n, -, -, -, rfl, -⟩ := hi.work_rejected g hg
    exact (hi.fromSeed hs).genAfter n

theorem Inv.exec {s t : State} {w : CmdWord} {i : Instr} (hi : Inv s) (hc : s.cmd = some w) (hn : s.rsp = none)
    (hd : decode w = .instr i) (h : exec i s = .next t) : Inv t := by
  obtain ⟨hcmd, -, htrace⟩ := exec_keeps_ports i s t h
  rw [hc] at hcmd
  have htrace' : ∀ p ∈ t.trace, Answers p.1 p.2 := htrace ▸ hi.trace_answers
  have hans := answers_of_exec hd hn h
  obtain ⟨v, -, rfl⟩ | ⟨-, st, v, rfl⟩ | ⟨-, hs, g, v, hg, rfl⟩ | ⟨b, rfl, hs, hb, ha, rfl⟩ := exec_next_cases i s t h
  · exact inv_of_answered (by simpa using fromSeed_expand v) (by simp) hcmd (complete_rsp _ _ _)
      (hans _ (complete_rsp _ _ _)) htrace'
  · exact inv_of_answered (by simpa using hi.fromSeed) (by simp) hcmd (respond_rsp _ _ _)
      (hans _ (respond_rsp _ _ _)) htrace'
  · have hfrom : FromSeed g := by
      obtain rfl | ⟨b, -, rfl⟩ := hg
      · exact hi.fromSeed hs
      · exact hi.working_fromSeed hs
    exact inv_of_answered (by simpa using fun _ => hfrom.advance) (by simp) hcmd (complete_rsp _ _ _)
      (hans _ (complete_rsp _ _ _)) htrace'
  · exact hi.holdDraw (by rw [hc, encode_of_decode w _ hd]) hn hs hb ha

/-- An illegal word is answered ILLEGAL (60_exceptions.md R103). -/
theorem Inv.fail_illegal {s : State} {w : CmdWord} {why : Illegal} (hi : Inv s) (hc : s.cmd = some w)
    (hd : decode w = .illegal why) : Inv (fail .illegal s) :=
  inv_of_answered (by simpa using hi.fromSeed) (by simp) (by simpa using hc) (by simp) (answers_illegal w why hd)
    (by simpa using hi.trace_answers)

theorem Inv.step {s t : State} (hi : Inv s) (h : step s = .next t) : Inv t := by
  obtain ⟨-, e⟩ | ⟨-, -, e⟩ | ⟨-, w, i, hc, hn, hd, e⟩ | ⟨-, w, why, hc, -, hd, e⟩ | ⟨-, w, r, hc, hr, e⟩ :=
    step_cases s
  case inr.inr.inl => exact hi.hostLater.exec hc hn hd (by rw [← e, h])
  all_goals
    rw [h, Host.Outcome.next.injEq] at e
    rw [e]
  · exact inv_resetBlock _
  · exact hi.hostLater.accept _
  · exact hi.hostLater.fail_illegal hc hd
  · exact hi.hostLater.deliver _ hc hr

/-- Settles O20, by what a step can do: reset, accept, execute, answer ILLEGAL, deliver. -/
theorem everyStepKeepsTheInvariant : Obligations.EveryStepKeepsTheInvariant :=
  fun _ _ hi h => hi.step h

/-! ### The words of an unseeded block -/

/-- The block with other words in `s0` and `s1`. -/
def State.withWords (s : State) (a b : Word64) : State := { s with s0 := a, s1 := b }

@[simp] theorem withWords_seeded (s : State) (a b : Word64) : (s.withWords a b).seeded = s.seeded := (rfl)
@[simp] theorem withWords_cmd (s : State) (a b : Word64) : (s.withWords a b).cmd = s.cmd := (rfl)
@[simp] theorem withWords_rsp (s : State) (a b : Word64) : (s.withWords a b).rsp = s.rsp := (rfl)
@[simp] theorem hostNow_withWords (s : State) (a b : Word64) : hostNow (s.withWords a b) = hostNow s := (rfl)

theorem hostLater_withWords (s : State) (a b : Word64) :
    hostLater (s.withWords a b) = (hostLater s).withWords a b := (rfl)
theorem resetBlock_withWords (s : State) (a b : Word64) : resetBlock (s.withWords a b) = resetBlock s := (rfl)
theorem markSeeded_withWords (s : State) (a b : Word64) :
    markSeeded (s.withWords a b) = (markSeeded s).withWords a b := (rfl)
theorem respond_withWords (st : Status) (v : Word64) (s : State) (a b : Word64) :
    respond st v (s.withWords a b) = (respond st v s).withWords a b := (rfl)
theorem fail_withWords (st : Status) (s : State) (a b : Word64) :
    fail st (s.withWords a b) = (fail st s).withWords a b := (rfl)
theorem complete_withWords (g : Gen) (v : Word64) (s : State) (a b : Word64) :
    complete g v (s.withWords a b) = complete g v s := (rfl)

theorem accept_withWords (c : Option CmdWord) (s : State) (a b : Word64) :
    accept c (s.withWords a b) = (accept c s).withWords a b := by
  cases c <;> rfl

theorem deliver_withWords (ready : Bool) (w : CmdWord) (r : Response) (s : State) (a b : Word64) :
    deliver ready w r (s.withWords a b) = (deliver ready w r s).withWords a b := by
  cases ready <;> rfl

/-- On an unseeded block a command is a SEED or has one answer, whatever the block holds. -/
theorem exec_unseeded_cases (i : Instr) :
    (∃ v, i = .seed v) ∨ ∃ st v, ∀ s : State, s.seeded = false → exec i s = .next (respond st v s) := by
  have unseeded (f : Word64 → Word64) (s : State) (hs : s.seeded = false) :
      requireSeeded s (drawOnce f s) = respond .unseeded 0 s := requireSeeded_of_unseeded s _ hs
  cases i with
  | seed v => exact .inl ⟨v, rfl⟩
  | mix z => exact .inr ⟨.ok, mix z, fun s _ => execMix_eq z s⟩
  | next64 => exact .inr ⟨.unseeded, 0, fun s hs => by rw [exec, execNext64, unseeded _ s hs]⟩
  | f64 => exact .inr ⟨.unseeded, 0, fun s hs => by rw [exec, execF64, unseeded _ s hs]⟩
  | f32 => exact .inr ⟨.unseeded, 0, fun s hs => by rw [exec, execF32, unseeded _ s hs]⟩
  | bounded b =>
    cases hb : nonPositive b with
    | true => exact .inr ⟨.invalidArgument, 0, fun s _ => by simp [exec, execBounded, hb, fail]⟩
    | false => exact .inr ⟨.unseeded, 0, fun s hs => by simp [exec, execBounded, hb, hs, fail]⟩

/-- `t'` is where the other words lead when `t` is where the block's own lead: the same state, or still unseeded and the same
but for the words. -/
def EqualButUnseededWords (a b : Word64) (t t' : State) : Prop :=
  t' = t ∨ (t.seeded = false ∧ t' = t.withWords a b)

theorem exec_withWords (i : Instr) (s t : State) (a b : Word64) (hs : s.seeded = false) (h : exec i s = .next t) :
    ∃ t', exec i (s.withWords a b) = .next t' ∧ EqualButUnseededWords a b t t' := by
  obtain ⟨v, rfl⟩ | ⟨st, v, e⟩ := exec_unseeded_cases i
  · rw [exec, execSeed_eq, Host.Outcome.next.injEq] at h
    exact ⟨t, by rw [exec, execSeed_eq, markSeeded_withWords, complete_withWords, h], .inl rfl⟩
  · rw [e s hs, Host.Outcome.next.injEq] at h
    subst h
    exact ⟨_, by rw [e _ (by simpa using hs), respond_withWords], .inr ⟨by simpa using hs, rfl⟩⟩

/-- One step of an unseeded block does not show its words (10_state.md R20). -/
theorem step_withWords (s t : State) (a b : Word64) (hs : s.seeded = false) (h : step s = .next t) :
    ∃ t', step (s.withWords a b) = .next t' ∧ EqualButUnseededWords a b t t' := by
  obtain ⟨hr, e⟩ | ⟨hr, hc, e⟩ | ⟨hr, w, i, hc, hn, hd, e⟩ | ⟨hr, w, why, hc, hn, hd, e⟩ | ⟨hr, w, r, hc, hn, e⟩ :=
    step_cases s <;> rw [h] at e
  · refine ⟨t, ?_, .inl rfl⟩
    rw [step_of_rst (s.withWords a b) hr, hostLater_withWords, resetBlock_withWords, e]
  · rw [Host.Outcome.next.injEq] at e
    refine ⟨t.withWords a b, ?_, .inr ⟨by simpa [e] using hs, rfl⟩⟩
    rw [step_of_idle (s.withWords a b) hr hc, hostLater_withWords, accept_withWords, hostNow_withWords, e]
  · obtain ⟨t', ht', heq⟩ := exec_withWords i (hostLater s) t a b hs e.symm
    refine ⟨t', ?_, heq⟩
    rw [step_of_executing (s.withWords a b) w hr hc hn, hostLater_withWords, runCommand_of_instr w i _ hd, ht']
  · rw [Host.Outcome.next.injEq] at e
    refine ⟨t.withWords a b, ?_, .inr ⟨by simpa [e] using hs, rfl⟩⟩
    rw [step_of_executing (s.withWords a b) w hr hc hn, hostLater_withWords, runCommand_of_illegal w why _ hd,
      fail_withWords, e]
  · rw [Host.Outcome.next.injEq] at e
    refine ⟨t.withWords a b, ?_, .inr ⟨by simpa [e] using hs, rfl⟩⟩
    rw [step_of_answered (s.withWords a b) w r hr hc hn, hostLater_withWords, deliver_withWords, hostNow_withWords, e]

theorem runs_withWords (n : Nat) (s t : State) (a b : Word64) (hs : s.seeded = false) (h : Runs n s t) :
    ∃ t', Runs n (s.withWords a b) t' ∧ EqualButUnseededWords a b t t' := by
  induction n generalizing s with
  | zero =>
    obtain rfl : s = t := h
    exact ⟨_, (runs_zero _ _).2 rfl, .inr ⟨hs, rfl⟩⟩
  | succ n ih =>
    obtain ⟨u, hu, hrun⟩ := h
    obtain ⟨u', hu', rfl | ⟨hsu, rfl⟩⟩ := step_withWords s u a b hs hu
    · exact ⟨t, ⟨u', hu', hrun⟩, .inl rfl⟩
    · obtain ⟨t', hrun', heq⟩ := ih u hsu hrun
      exact ⟨t', ⟨_, hu', hrun'⟩, heq⟩

/-- Settles O22, by induction on the run: until the two runs meet, the block is unseeded and only its words differ. -/
theorem unseededWordsNeverShow : Obligations.UnseededWordsNeverShow :=
  fun n s t a b hs h => runs_withWords n s t a b hs h

end Sys2Proof.Machine

namespace Sys2Proof

/-! ### The words of the commands, and the rows that match them -/

theorem toInstr?_eq_some_iff (d : Decoded) (i : Instr) : d.toInstr? = some i ↔ d = .instr i := by
  cases d <;> simp [Decoded.toInstr?]

theorem decodeTableWord_eq_some_iff (nbits w : Nat) (i : Instr) :
    decodeTableWord nbits w = some i ↔ decode (BitVec.ofNat 72 (w % 2 ^ nbits)) = .instr i :=
  toInstr?_eq_some_iff _ _

theorem decodeTableWord_toNat (w : CmdWord) : decodeTableWord 72 w.toNat = (decode w).toInstr? := by
  rw [decodeTableWord, Nat.mod_eq_of_lt w.isLt, BitVec.ofNat_toNat, BitVec.setWidth_eq]

/-- Settles O15: the fields of the encoded word are the command's opcode and operand, which the decoder reads back. -/
theorem decodeOfEncodeIsTheCommand : Obligations.DecodeOfEncodeIsTheCommand :=
  fun i => ⟨decode_encode i, by rw [decodeTableWord_toNat, decode_encode, Decoded.toInstr?]⟩

/-- Settles O16: a decoded word has the opcode and the operand of its command, and the two fields are the whole word. -/
theorem encodeOfDecodeIsTheWord : Obligations.EncodeOfDecodeIsTheWord :=
  fun w i h => (encode_of_decode w i h).symm

/-- Settles O17: the six words are evaluated. -/
theorem specWordsDecode : Obligations.SpecWordsDecode := by
  unfold Obligations.SpecWordsDecode
  decide

/-- The command table with masks and values written as fields (30_encoding.md R30, R38). -/
theorem opcodeTable_eq_fields : opcodeTable =
    [ ⟨"SEED",    cmdWord 0xFF 0, cmdWord 0x01 0⟩,
      ⟨"MIX",     cmdWord 0xFF 0, cmdWord 0x02 0⟩,
      ⟨"NEXT64",  cmdWord 0xFF (BitVec.allOnes 64), cmdWord 0x10 0⟩,
      ⟨"BOUNDED", cmdWord 0xFF 0xFFFFFFFF00000000, cmdWord 0x11 0⟩,
      ⟨"F64",     cmdWord 0xFF (BitVec.allOnes 64), cmdWord 0x12 0⟩,
      ⟨"F32",     cmdWord 0xFF (BitVec.allOnes 64), cmdWord 0x13 0⟩ ] := by decide

/-- A row fits the word of a command by the command's opcode and operand. -/
theorem fits_encode (m : String) (opMask op : BitVec 8) (argMask arg : Word64) (i : Instr) :
    (OpcodeRow.mk m (cmdWord opMask argMask) (cmdWord op arg)).fits (encode i) =
      (decide (i.opcode &&& opMask = op) && decide (i.arg &&& argMask = arg)) := by
  rw [Bool.eq_iff_iff, fits_iff_fields, opField_encode, argField_encode, Bool.and_eq_true, decide_eq_true_iff,
    decide_eq_true_iff]

/-- The operand of a BOUNDED word has its high half 0 (30_encoding.md R33). -/
theorem arg_bounded_and_high (b : Word32) : (Instr.bounded b).arg &&& 0xFFFFFFFF00000000#64 = 0#64 := by
  rw [← argField_encode]
  exact (argField_and_high_eq_zero_iff _).2 (argHigh_encode_bounded b)

/-- The rows that fit the word of a command are the rows of its mnemonic. -/
theorem filter_fits_encode (i : Instr) :
    opcodeTable.filter (fun r => r.fits (encode i)) = opcodeTable.filter (fun r => r.mnemonic == i.mnemonic) := by
  rw [opcodeTable_eq_fields]
  cases i with
  | bounded b => simp [fits_encode, arg_bounded_and_high, Instr.opcode, Instr.mnemonic]
  | seed _ | mix _ | next64 | f64 | f32 => simp [fits_encode, Instr.opcode, Instr.arg, Instr.mnemonic]

/-- Each mnemonic names one row of the table (30_encoding.md R32). -/
theorem length_filter_mnemonic (i : Instr) : (opcodeTable.filter (fun r => r.mnemonic == i.mnemonic)).length = 1 := by
  cases i <;> rfl

theorem legalWord_iff_length_filter_pos (w : CmdWord) :
    legalWord w = true ↔ 0 < (opcodeTable.filter (fun r => r.fits w)).length := by
  rw [legalWord, List.any_eq_true, List.length_pos_iff_exists_mem]
  simp only [List.mem_filter]

/-- Settles O14: a decoded word is the word of its command, which the rows of its mnemonic fit and no other; the legal words
are those that some row fits. -/
theorem decodeAcceptsExactlyTheTableRows : Obligations.DecodeAcceptsExactlyTheTableRows := by
  intro w
  have hrows (i : Instr) (h : decode w = .instr i) :
      opcodeTable.filter (fun r => r.fits w) = opcodeTable.filter (fun r => r.mnemonic == i.mnemonic) := by
    rw [encode_of_decode w i h, filter_fits_encode]
  refine ⟨hrows, ⟨?_, fun h => ?_⟩, (legalWord_eq_false_iff_decode w).symm⟩
  · rintro ⟨i, h⟩
    rw [hrows i h, length_filter_mnemonic]
  · rw [← legalWord_iff_decode, legalWord_iff_length_filter_pos, h]
    exact Nat.one_pos

end Sys2Proof

namespace Sys2Proof.Machine

/-! ### The block at its ports -/

theorem hostLater_eq (s : State) : hostLater s = { s with host := s.host.tail } := (rfl)

theorem cmdReady_iff (s : State) : cmdReady s = true ↔ s.cmd = none := Option.isNone_iff_eq_none

theorem idle_iff (s : State) : Idle s ↔ s.cmd = none ∧ s.rsp = none := by
  rw [Idle, cmdReady_iff, rspValid, Option.isSome_eq_false_iff, Option.isNone_iff_eq_none]

/-- A block that executes a word that decodes runs its command with the inputs of the step used up. -/
theorem step_of_executing_instr {s : State} {w : CmdWord} {i : Instr} (h : Executing s w) (hd : decode w = .instr i) :
    step s = exec i (hostLater s) := by
  obtain ⟨hc, hn, hr⟩ := h
  rw [step_of_executing s w hr hc hn, runCommand_of_instr w i _ hd]

/-- A block that executes an illegal word answers ILLEGAL. -/
theorem step_of_executing_illegal {s : State} {w : CmdWord} {why : Illegal} (h : Executing s w)
    (hd : decode w = .illegal why) : step s = .next (fail .illegal (hostLater s)) := by
  obtain ⟨hc, hn, hr⟩ := h
  rw [step_of_executing s w hr hc hn, runCommand_of_illegal w why _ hd]

/-- A reserved opcode or a non-zero reserved operand bit matches no row of the table (30_encoding.md R34, R35). -/
theorem legalWord_eq_false_of_malformed (w : CmdWord)
    (h : opField w ∉ ([0x01, 0x02, 0x10, 0x11, 0x12, 0x13] : List (BitVec 8)) ∨
      (opField w = 0x11 ∧ argHigh w ≠ 0) ∨
      (opField w ∈ ([0x10, 0x12, 0x13] : List (BitVec 8)) ∧ argField w ≠ 0)) : legalWord w = false := by
  rw [← Bool.not_eq_true, legalWord_iff_fields]
  obtain h | ⟨h, ha⟩ | ⟨h, ha⟩ := h
  · simp only [List.mem_cons, List.not_mem_nil, or_false, not_or] at h
    tauto
  · simpa [h] using ha
  · simp only [List.mem_cons, List.not_mem_nil, or_false] at h
    obtain h | h | h := h <;> simpa [h] using ha

/-- Settles O13: a malformed word matches no row, so the decoder finds it illegal and the step answers ILLEGAL. -/
theorem malformedWordsAnswerIllegal : Obligations.MalformedWordsAnswerIllegal := by
  intro s w hw op hmalformed
  obtain ⟨why, hd⟩ := (legalWord_eq_false_iff_decode w).1 (legalWord_eq_false_of_malformed w hmalformed)
  rw [step_of_executing_illegal hw hd, fail_eq, hostLater_eq]

theorem hostLater_withFetchWord (s : State) (nbits w : Nat) : hostLater (s.withFetchWord nbits w) =
    { s with cmd := some (BitVec.ofNat 72 (w % 2 ^ nbits)), work := none, rsp := none } := (rfl)

theorem executing_withFetchWord (s : State) (nbits w : Nat) :
    Executing (s.withFetchWord nbits w) (BitVec.ofNat 72 (w % 2 ^ nbits)) := ⟨rfl, rfl, rfl⟩

/-- Settles O18: both parts are the step of a block that executes a word that decodes. -/
theorem stepRunsTheDecodedCommand : Obligations.StepRunsTheDecodedCommand := by
  refine ⟨fun s w i hw hd => ?_, fun s nbits w i hd => ?_⟩
  · rw [step_of_executing_instr hw hd, hostLater_eq]
  · rw [step_of_executing_instr (executing_withFetchWord s nbits w) ((decodeTableWord_eq_some_iff nbits w i).1 hd),
      hostLater_withFetchWord]

/-- A step with a command in the block leaves it there and delivers nothing, or delivers its response. -/
theorem step_of_busy_cases {s t : State} {w : CmdWord} (hrst : (hostNow s).rst = false) (hc : s.cmd = some w)
    (h : step s = .next t) :
    (t.cmd = some w ∧ t.trace = s.trace) ∨
      (∃ r, s.rsp = some r ∧ (hostNow s).rspReady = true ∧ Idle t ∧ t.trace = s.trace ++ [(w, r)]) := by
  obtain ⟨hr, -⟩ | ⟨-, hc', -⟩ | ⟨-, w', i, hc', hn, hd, e⟩ | ⟨-, w', why, hc', hn, hd, e⟩ | ⟨-, w', r, hc', hr, e⟩ :=
    step_cases s
  · simp [hrst] at hr
  · simp [hc] at hc'
  · obtain ⟨hcmd, -, htrace⟩ := exec_keeps_ports i (hostLater s) t (by rw [← e, h])
    exact .inl ⟨by rw [hcmd, hostLater_cmd, hc], by rw [htrace, hostLater_trace]⟩
  · rw [h, Host.Outcome.next.injEq] at e
    exact .inl ⟨by rw [e, fail_cmd, hostLater_cmd, hc], by rw [e, fail_trace, hostLater_trace]⟩
  · rw [h, Host.Outcome.next.injEq] at e
    obtain rfl : w = w' := Option.some.inj (hc.symm.trans hc')
    obtain ⟨-, e'⟩ | ⟨hready, e'⟩ := deliver_cases (hostNow s).rspReady w r (hostLater s) <;> rw [e, e']
    · exact .inl ⟨by rw [hostLater_cmd, hc], by rw [hostLater_trace]⟩
    · exact .inr ⟨r, hr, hready, (idle_iff _).2 ⟨rfl, rfl⟩, by rw [hostLater_trace]⟩

/-- Settles O29, by what the ports do for an idle block, for a command in the block and for a held response. -/
theorem oneCommandAtATimeAtThePorts : Obligations.OneCommandAtATimeAtThePorts := by
  refine ⟨fun s w hrst hready hcmd => ?_, fun s hrst hready hcmd => ?_, fun s t w hrst hc h => ?_,
    fun s w r hrst hc hr hready => ?_, fun s w r hrst hc hr hready => ?_⟩
  · refine ⟨_, step_of_idle s hrst ((cmdReady_iff s).1 hready), ?_⟩
    rw [hcmd]
    exact ⟨rfl, rfl, rfl, accept_gen _ _, accept_seeded _ _, rfl⟩
  · rw [step_of_idle s hrst ((cmdReady_iff s).1 hready), hcmd, accept_none, hostLater_eq]
  · obtain ⟨hcmd, htrace⟩ | hdelivered := step_of_busy_cases hrst hc h
    · exact .inl ⟨hcmd, by rw [cmdReady, hcmd, Option.isNone_some], htrace⟩
    · exact .inr hdelivered
  · rw [step_of_answered s w r hrst hc hr, hready, deliver_waiting, hostLater_eq]
  · rw [step_of_answered s w r hrst hc hr, hready, deliver_ready, hostLater_eq]

/-! ### One command from presentation to delivery -/

/-- A command that is no BOUNDED on the rejection path answers in one step (70_reset_and_hazards.md R127). -/
theorem exec_answers (i : Instr) (s : State) (hi : ∀ b, i = .bounded b → ¬ RejectionPath b) :
    ∃ t r, exec i s = .next t ∧ t.rsp = some r := by
  obtain ⟨_, _, e⟩ | ⟨_, _, e⟩ | ⟨_, _, _, _, e⟩ | ⟨_, _, _, _, _, _, e⟩ | ⟨b, hb, _, hpos, h2, _⟩ |
    ⟨_, _, ⟨_, e⟩ | ⟨_, _, _, e⟩⟩ := exec_cases i s
  · exact ⟨_, _, e, complete_rsp _ _ _⟩
  · exact ⟨_, _, e, respond_rsp _ _ _⟩
  · exact ⟨_, _, e, complete_rsp _ _ _⟩
  · exact ⟨_, _, e, complete_rsp _ _ _⟩
  · exact absurd ((rejectionPath_iff b).2 ⟨hpos, h2⟩) (hi b hb)
  · exact ⟨_, _, e, fail_rsp _ _⟩
  · exact ⟨_, _, e, fail_rsp _ _⟩

/-- So does any word but such a BOUNDED. -/
theorem runCommand_answers (w : CmdWord) (s : State) (hw : ∀ b, decode w = .instr (.bounded b) → ¬ RejectionPath b) :
    ∃ t r, runCommand w s = .next t ∧ t.rsp = some r := by
  cases hd : decode w with
  | instr i =>
    rw [runCommand_of_instr w i s hd]
    exact exec_answers i s (fun b hb => hw b (by rw [hd, hb]))
  | illegal why => exact ⟨_, _, runCommand_of_illegal w why s hd, fail_rsp _ _⟩

theorem runCommand_keeps_ports (w : CmdWord) (s t : State) (h : runCommand w s = .next t) :
    t.cmd = s.cmd ∧ t.trace = s.trace := by
  cases hd : decode w with
  | instr i =>
    rw [runCommand_of_instr w i s hd] at h
    obtain ⟨hcmd, -, htrace⟩ := exec_keeps_ports i s t h
    exact ⟨hcmd, htrace⟩
  | illegal why =>
    rw [runCommand_of_illegal w why s hd, Host.Outcome.next.injEq] at h
    exact ⟨by rw [← h, fail_cmd], by rw [← h, fail_trace]⟩

theorem runCommand_withHost (w : CmdWord) (s t : State) (h : List HostInput) (he : runCommand w s = .next t) :
    runCommand w { s with host := h } = .next { t with host := h } := by
  cases hd : decode w with
  | instr i =>
    rw [runCommand_of_instr w i _ hd] at he ⊢
    exact exec_withHost i s t h he
  | illegal why =>
    rw [runCommand_of_illegal w why _ hd, Host.Outcome.next.injEq] at he
    rw [runCommand_of_illegal w why _ hd, fail_withHost, he]

/-- Whatever answers the word in the block is a legal answer to it. -/
theorem answers_of_runCommand {w : CmdWord} {s t : State} {r : Response} (hn : s.rsp = none)
    (h : runCommand w s = .next t) (hr : t.rsp = some r) : Answers w r := by
  cases hd : decode w with
  | instr i => exact answers_of_exec hd hn (by rw [← h, runCommand_of_instr w i s hd]) r hr
  | illegal why =>
    rw [runCommand_of_illegal w why s hd, Host.Outcome.next.injEq] at h
    exact answers_of_fail (answers_illegal w why hd) r (h ▸ hr)

/-! The four steps of a transaction, each with the inputs of its step at the head of the host's list. -/

theorem step_accepting (s : State) (w : CmdWord) (rest : List HostInput) (hs : Idle s) :
    step { s with host := ⟨false, some w, false⟩ :: rest } =
      .next { s with host := rest, cmd := some w, work := none } := by
  obtain ⟨hc, hn⟩ := (idle_iff s).1 hs
  have h := step_of_idle { s with host := ⟨false, some w, false⟩ :: rest } rfl hc
  rw [hostNow_cons _ _ _ rfl, accept_some] at h
  rw [h, hn]
  rfl

theorem step_executing (s u : State) (w : CmdWord) (rest : List HostInput) (hc : s.cmd = some w) (hn : s.rsp = none)
    (hu : runCommand w s = .next u) :
    step { s with host := HostInput.quiet :: rest } = .next { u with host := rest } := by
  rw [← runCommand_withHost w s u rest hu]
  exact step_of_executing _ w quiet_rst hc hn

theorem step_waiting (s : State) (w : CmdWord) (r : Response) (rest : List HostInput) (hc : s.cmd = some w)
    (hr : s.rsp = some r) : step { s with host := HostInput.quiet :: rest } = .next { s with host := rest } :=
  step_of_answered _ w r quiet_rst hc hr

theorem step_delivering (s : State) (w : CmdWord) (r : Response) (rest : List HostInput) (hc : s.cmd = some w)
    (hr : s.rsp = some r) : step { s with host := ⟨false, none, true⟩ :: rest } =
      .next { s with host := rest, cmd := none, work := none, rsp := none, trace := s.trace ++ [(w, r)] } :=
  step_of_answered _ w r rfl hc hr

/-- A held response stays as it is while the host waits (70_reset_and_hazards.md R129). -/
theorem runs_waiting (n : Nat) (s : State) (w : CmdWord) (r : Response) (rest : List HostInput) (hc : s.cmd = some w)
    (hr : s.rsp = some r) :
    Runs n { s with host := List.replicate n HostInput.quiet ++ rest } { s with host := rest } := by
  induction n with
  | zero => exact (runs_zero _ _).2 (by rw [List.replicate_zero, List.nil_append])
  | succ n ih =>
    rw [List.replicate_succ, List.cons_append]
    exact ⟨_, step_waiting s w r _ hc hr, ih⟩

theorem transaction_succ_append (w : CmdWord) (n : Nat) (rest : List HostInput) : transaction w (n + 1) ++ rest =
    ⟨false, some w, false⟩ :: HostInput.quiet ::
      (List.replicate n HostInput.quiet ++ (⟨false, none, true⟩ :: rest)) := by
  simp [transaction, List.replicate_succ]

/-- A transaction with an idle block: the word is accepted, executed in the first round, its response held for the other rounds
and delivered. `u` is the block after the execution. -/
theorem runs_transaction (s u : State) (w : CmdWord) (r : Response) (n : Nat) (rest : List HostInput) (hs : Idle s)
    (hu : runCommand w { s with cmd := some w, work := none } = .next u) (hr : u.rsp = some r) :
    Runs (n + 3) { s with host := transaction w (n + 1) ++ rest }
      { u with host := rest, cmd := none, work := none, rsp := none, trace := u.trace ++ [(w, r)] } := by
  have hn : s.rsp = none := ((idle_iff s).1 hs).2
  have hc : u.cmd = some w := (runCommand_keeps_ports w _ u hu).1
  rw [transaction_succ_append]
  exact ⟨_, step_accepting s w _ hs, _, step_executing { s with cmd := some w, work := none } u w _ rfl hn hu,
    runs_append n 1 _ _ _ (runs_waiting n u w r _ hc hr) (runs_one _ _ (step_delivering u w r rest hc hr))⟩

/-- Settles O33: the word is answered in its first round of execution, and the answer held until the host takes it. -/
theorem everyOtherCommandIsAnsweredOnce : Obligations.EveryOtherCommandIsAnsweredOnce := by
  intro s w rounds rest hs hrounds hhost hw
  obtain ⟨n, rfl⟩ := Nat.exists_eq_add_of_le' hrounds
  obtain ⟨u, r, hu, hr⟩ := runCommand_answers w { s with cmd := some w, work := none } hw
  have hrun := runs_transaction s u w r n rest hs hu hr
  rw [← hhost] at hrun
  have hanswers : Answers w r :=
    answers_of_runCommand (s := { s with cmd := some w, work := none }) ((idle_iff s).1 hs).2 hu hr
  refine ⟨_, r, hrun, (idle_iff _).2 ⟨rfl, rfl⟩, rfl, by rw [(runCommand_keeps_ports w _ u hu).2], hanswers,
    fun i hd => ?_, ?_⟩
  · exact ⟨u, by rw [← runCommand_of_instr w i _ hd, hu], hr, rfl, rfl⟩
  · rintro ⟨why, hd⟩
    rw [runCommand_of_illegal w why _ hd, Host.Outcome.next.injEq] at hu
    subst hu
    exact ⟨rfl, rfl⟩

end Sys2Proof.Machine

namespace Sys2Proof.Machine

/-! ### The response word -/

theorem response_word_toNat (r : Response) : r.word.toNat = r.status.code.toNat * 2 ^ 64 + r.result.toNat :=
  append_toNat _ _

theorem response_word_status (r : Response) : r.word.extractLsb' 64 2 = r.status.code := by
  apply BitVec.eq_of_toNat_eq
  have hres := r.result.isLt
  have hcode := r.status.code.isLt
  rw [BitVec.extractLsb'_toNat, response_word_toNat, Nat.shiftRight_eq_div_pow]
  omega

theorem response_word_result (r : Response) : r.word.extractLsb' 0 64 = r.result := by
  apply BitVec.eq_of_toNat_eq
  have hres := r.result.isLt
  rw [BitVec.extractLsb'_toNat, response_word_toNat, Nat.shiftRight_zero]
  omega

/-- Each status has a code of its own, so the word gives the response back (60_exceptions.md R100). -/
theorem response_ofWord_word (r : Response) : Response.ofWord r.word = r := by
  rw [Response.ofWord, response_word_status, response_word_result]
  obtain ⟨status, result⟩ := r
  cases status <;> rfl

/-- Settles O39: the two fields of the concatenation, in arithmetic. -/
theorem responseWordCarriesStatusAndResult : Obligations.ResponseWordCarriesStatusAndResult :=
  ⟨rfl, rfl, rfl, rfl, fun r =>
    ⟨response_word_status r, response_word_result r, response_word_toNat r, response_ofWord_word r⟩⟩

/-! ### The characters of a written command -/

/-- A character that neither separates the words of a line nor starts a comment. -/
def WordChar (c : Char) : Prop := c ≠ ' ' ∧ c ≠ '\t' ∧ c ≠ '\r' ∧ c ≠ ';'

theorem WordChar.ne_semicolon {c : Char} (h : WordChar c) : c ≠ ';' := by
  obtain ⟨-, -, -, hsemicolon⟩ := h
  exact hsemicolon

/-- The digits of either base are word characters: no separator has a digit's value. -/
theorem wordChar_of_digitValue {base d : Nat} {c : Char} (hbase : base ≤ 16) (h : digitValue base c = some d) :
    WordChar c := by
  refine ⟨?_, ?_, ?_, ?_⟩ <;> rintro rfl <;> simp [digitValue] at h <;> omega

theorem digitValue_hexDigit (d : Nat) (h : d < 16) : digitValue 16 (hexDigit d) = some d := by
  revert d
  decide

theorem wordChar_of_numberFrom {base acc v : Nat} {ds : List Char} (hbase : base ≤ 16)
    (h : numberFrom base acc ds = some v) : ∀ c ∈ ds, WordChar c := by
  induction ds generalizing acc with
  | nil => simp
  | cons d ds ih =>
    rw [numberFrom] at h
    cases hd : digitValue base d with
    | none => simp [hd] at h
    | some k =>
      rw [hd] at h
      exact List.forall_mem_cons.2 ⟨wordChar_of_digitValue hbase hd, ih h⟩

theorem wordChar_of_number {base v : Nat} {ds : List Char} (hbase : base ≤ 16) (h : number base ds = some v) :
    ∀ c ∈ ds, WordChar c := by
  unfold number at h
  split at h
  · cases h
  · exact wordChar_of_numberFrom hbase h

theorem wordChar_mnemonicChars (i : Instr) : ∀ c ∈ mnemonicChars i, WordChar c := by
  cases i <;> simp [mnemonicChars, WordChar]

theorem mnemonicChars_ne_nil (i : Instr) : mnemonicChars i ≠ [] := by
  cases i <;> simp [mnemonicChars]

/-! ### Hexadecimal digits read back -/

@[simp] theorem length_hexDigits (k v : Nat) : (hexDigits k v).length = k := by
  induction k with
  | zero => rfl
  | succ k ih => rw [hexDigits, List.length_cons, ih]

/-- Reading the last `k` hexadecimal digits of `v` after `acc`. -/
theorem numberFrom_hexDigits (acc k v : Nat) : numberFrom 16 acc (hexDigits k v) = some (acc * 16 ^ k + v % 16 ^ k) := by
  induction k generalizing acc with
  | zero => simp [hexDigits, numberFrom, Nat.mod_one]
  | succ k ih =>
    rw [hexDigits, numberFrom, digitValue_hexDigit _ (Nat.mod_lt _ (by decide))]
    simp only
    rw [ih, Nat.mod_pow_succ]
    congr 1
    ring

theorem number_hexDigits (k v : Nat) (hk : k ≠ 0) (hv : v < 16 ^ k) : number 16 (hexDigits k v) = some v := by
  have hne : ¬ (hexDigits k v).isEmpty := by
    rw [List.isEmpty_iff_length_eq_zero, length_hexDigits]
    exact hk
  rw [number, if_neg hne, numberFrom_hexDigits, Nat.zero_mul, Nat.zero_add, Nat.mod_eq_of_lt hv]

theorem wordChar_hexDigits (k v : Nat) : ∀ c ∈ hexDigits k v, WordChar c :=
  wordChar_of_numberFrom (le_refl 16) (numberFrom_hexDigits 0 k v)

theorem patternWithin_toNat {n : Nat} (v : BitVec n) : patternWithin n (2 ^ n - 1) (some v.toNat) = some v := by
  have := v.isLt
  simp only [patternWithin, if_pos (show v.toNat ≤ 2 ^ n - 1 by omega), BitVec.ofNat_toNat, BitVec.setWidth_eq]

/-- The pattern of `n = 4k` bits that `k` hexadecimal digits stand for. -/
theorem patternWithin_hexDigits {n : Nat} (k : Nat) (v : BitVec n) (hk : k ≠ 0) (hn : 2 ^ n = 16 ^ k) :
    patternWithin n (2 ^ n - 1) (number 16 (hexDigits k v.toNat)) = some v := by
  rw [number_hexDigits k _ hk (hn ▸ v.isLt), patternWithin_toNat]

/-- A command word written as `0x` and its digits. -/
theorem cmdOfText_cmdText (w : CmdWord) : cmdOfText (cmdText w) = some w := by
  rw [cmdText, List.cons_append, List.cons_append, List.nil_append, cmdOfText, if_pos (length_hexDigits _ _),
    patternWithin_hexDigits 18 w (by decide) (by decide)]

theorem length_cmdText (w : CmdWord) : (cmdText w).length = 20 := by
  rw [cmdText, List.length_append, length_hexDigits]
  rfl

/-! ### The operands of a written command -/

/-- An operand of `n = 4k` bits written in hexadecimal. -/
def hexOperand {n : Nat} (k : Nat) (v : BitVec n) : List Char := '0' :: 'x' :: hexDigits k v.toNat

theorem operand_hexOperand {n : Nat} (maxDecimal k : Nat) (v : BitVec n) (hk : k ≠ 0) (hn : 2 ^ n = 16 ^ k) :
    operand n maxDecimal (hexOperand k v) = some v := by
  rw [hexOperand, operand, patternWithin_hexDigits k v hk hn]

/-- A negative decimal stands for its two's complement (30_encoding.md R41). -/
theorem operand_negative {n maxDecimal v : Nat} {ds : List Char} (h : number 10 ds = some v) (hv : v ≤ 2 ^ (n - 1)) :
    operand n maxDecimal ('-' :: ds) = some (BitVec.ofNat n (2 ^ n - v)) := by
  rw [operand, h, negativePattern, if_pos hv]

theorem wordChar_hexOperand {n : Nat} (k : Nat) (v : BitVec n) : ∀ c ∈ hexOperand k v, WordChar c :=
  List.forall_mem_cons.2 ⟨by unfold WordChar; decide,
    List.forall_mem_cons.2 ⟨by unfold WordChar; decide, wordChar_hexDigits k _⟩⟩

theorem wordChar_negative {v : Nat} {ds : List Char} (h : number 10 ds = some v) : ∀ c ∈ '-' :: ds, WordChar c :=
  List.forall_mem_cons.2 ⟨by unfold WordChar; decide, wordChar_of_number (by decide) h⟩

theorem withOperand_seed {t : List Char} {v : Word64} (h : operand 64 (2 ^ 64 - 1) t = some v) :
    withOperand (mnemonicChars (.seed 0)) t = .command (.seed v) := by
  rw [withOperand, if_pos rfl, h]

theorem withOperand_mix {t : List Char} {z : Word64} (h : operand 64 (2 ^ 64 - 1) t = some z) :
    withOperand (mnemonicChars (.mix 0)) t = .command (.mix z) := by
  rw [withOperand, if_neg (by decide), if_pos rfl, h]

theorem withOperand_bounded {t : List Char} {b : Word32} (h : operand 32 (2 ^ 31 - 1) t = some b) :
    withOperand (mnemonicChars (.bounded 0)) t = .command (.bounded b) := by
  rw [withOperand, if_neg (by decide), if_neg (by decide), if_pos rfl, h]

/-! ### The words of a line -/

theorem wordsFrom_append (cur ds rest : List Char) (h : ∀ c ∈ ds, WordChar c) :
    wordsFrom cur (ds ++ rest) = wordsFrom (cur ++ ds) rest := by
  induction ds generalizing cur with
  | nil => rw [List.nil_append, List.append_nil]
  | cons d ds ih =>
    obtain ⟨⟨hspace, htab, hcr, -⟩, hds⟩ := List.forall_mem_cons.1 h
    rw [List.cons_append, wordsFrom, if_neg (by simp [hspace, htab, hcr]), ih _ hds, List.append_assoc,
      List.singleton_append]

theorem wordsFrom_space (cur rest : List Char) (h : cur ≠ []) : wordsFrom cur (' ' :: rest) = cur :: wordsFrom [] rest := by
  simp [wordsFrom, h]

theorem wordsFrom_nil (cur : List Char) (h : cur ≠ []) : wordsFrom cur [] = [cur] := by
  simp [wordsFrom, h]

/-- A space after the last word of a line changes nothing. -/
theorem wordsFrom_append_space (cur line : List Char) : wordsFrom cur (line ++ [' ']) = wordsFrom cur line := by
  induction line generalizing cur with
  | nil => simp [wordsFrom]
  | cons c cs ih => simp only [List.cons_append, wordsFrom, ih]

theorem wordsFrom_word (m : List Char) (hm : ∀ c ∈ m, WordChar c) (hne : m ≠ []) : wordsFrom [] m = [m] := by
  have h := wordsFrom_append [] m [] hm
  rwa [List.append_nil, List.nil_append, wordsFrom_nil m hne] at h

theorem wordsFrom_two_words (m t : List Char) (hm : ∀ c ∈ m, WordChar c) (hmne : m ≠ []) (ht : ∀ c ∈ t, WordChar c)
    (htne : t ≠ []) : wordsFrom [] (m ++ ' ' :: t) = [m, t] := by
  rw [wordsFrom_append [] m _ hm, List.nil_append, wordsFrom_space m t hmne, wordsFrom_word t ht htne]

/-! ### Lines -/

/-- A line without a comment is read whole. -/
theorem takeWhile_uncommented (line : List Char) (h : ∀ c ∈ line, c ≠ ';') :
    line.takeWhile (fun c => c != ';') = line :=
  List.takeWhile_eq_self_iff.2 (by simpa using h)

/-- A comment after a line changes nothing (30_encoding.md R41). -/
theorem assembleLine_comment (line comment : List Char) (h : ∀ c ∈ line, c ≠ ';') :
    assembleLine (line ++ ' ' :: ';' :: comment) = assembleLine line := by
  have htake : (line ++ ' ' :: ';' :: comment).takeWhile (fun c => c != ';') = line ++ [' '] := by
    rw [List.takeWhile_append_of_pos (by simpa using h)]
    rfl
  rw [assembleLine, htake, wordsFrom_append_space, assembleLine, takeWhile_uncommented line h]

theorem assembleLine_word (m : List Char) (hm : ∀ c ∈ m, WordChar c) (hne : m ≠ []) :
    assembleLine m = withoutOperand m := by
  rw [assembleLine, takeWhile_uncommented m (fun c hc => (hm c hc).ne_semicolon), wordsFrom_word m hm hne]

theorem no_comment_of_mnemonic (i : Instr) : ∀ c ∈ mnemonicChars i, c ≠ ';' :=
  fun c hc => (wordChar_mnemonicChars i c hc).ne_semicolon

theorem no_comment_of_operand (i : Instr) (t : List Char) (ht : ∀ c ∈ t, WordChar c) :
    ∀ c ∈ mnemonicChars i ++ ' ' :: t, c ≠ ';' :=
  List.forall_mem_append.2 ⟨no_comment_of_mnemonic i,
    List.forall_mem_cons.2 ⟨by decide, fun c hc => (ht c hc).ne_semicolon⟩⟩

/-- A line of a mnemonic and an operand. -/
theorem assembleLine_operand (i : Instr) (t : List Char) (ht : ∀ c ∈ t, WordChar c) (htne : t ≠ []) :
    assembleLine (mnemonicChars i ++ ' ' :: t) = withOperand (mnemonicChars i) t := by
  rw [assembleLine, takeWhile_uncommented _ (no_comment_of_operand i t ht),
    wordsFrom_two_words _ t (wordChar_mnemonicChars i) (mnemonicChars_ne_nil i) ht htne]

/-! The written form of a command: a mnemonic alone, or a mnemonic and a hexadecimal operand. -/

theorem instrText_seed (v : Word64) : instrText (.seed v) = mnemonicChars (.seed 0) ++ ' ' :: hexOperand 16 v := (rfl)

theorem instrText_mix (z : Word64) : instrText (.mix z) = mnemonicChars (.mix 0) ++ ' ' :: hexOperand 16 z := (rfl)

theorem instrText_bounded (b : Word32) : instrText (.bounded b) = mnemonicChars (.bounded 0) ++ ' ' :: hexOperand 8 b :=
  (rfl)

theorem assembleLine_hexOperand {n : Nat} (i : Instr) (k : Nat) (v : BitVec n) :
    assembleLine (mnemonicChars i ++ ' ' :: hexOperand k v) = withOperand (mnemonicChars i) (hexOperand k v) :=
  assembleLine_operand i _ (wordChar_hexOperand k v) (List.cons_ne_nil _ _)

/-- A written command assembles to the command (30_encoding.md R41). -/
theorem assembleLine_instrText (i : Instr) : assembleLine (instrText i) = .command i := by
  cases i with
  | seed v =>
    rw [instrText_seed, assembleLine_hexOperand, withOperand_seed (operand_hexOperand _ 16 v (by decide) (by decide))]
  | mix z =>
    rw [instrText_mix, assembleLine_hexOperand, withOperand_mix (operand_hexOperand _ 16 z (by decide) (by decide))]
  | bounded b =>
    rw [instrText_bounded, assembleLine_hexOperand,
      withOperand_bounded (operand_hexOperand _ 8 b (by decide) (by decide))]
  | next64 => exact assembleLine_word _ (wordChar_mnemonicChars .next64) (mnemonicChars_ne_nil .next64)
  | f64 => exact assembleLine_word _ (wordChar_mnemonicChars .f64) (mnemonicChars_ne_nil .f64)
  | f32 => exact assembleLine_word _ (wordChar_mnemonicChars .f32) (mnemonicChars_ne_nil .f32)

/-- A written command holds no comment. -/
theorem instrText_no_comment (i : Instr) : ∀ c ∈ instrText i, c ≠ ';' := by
  cases i with
  | seed v => exact no_comment_of_operand (.seed 0) _ (wordChar_hexOperand 16 v)
  | mix z => exact no_comment_of_operand (.mix 0) _ (wordChar_hexOperand 16 z)
  | bounded b => exact no_comment_of_operand (.bounded 0) _ (wordChar_hexOperand 8 b)
  | next64 => exact no_comment_of_mnemonic .next64
  | f64 => exact no_comment_of_mnemonic .f64
  | f32 => exact no_comment_of_mnemonic .f32

/-- Settles O37: the words of the line are the mnemonic and the operand, whose digits read back as the number written. -/
theorem writtenFormsReadBack : Obligations.WrittenFormsReadBack := by
  refine ⟨assembleLine_instrText, fun i comment => ?_, fun w => ⟨length_cmdText w, cmdOfText_cmdText w⟩⟩
  rw [assembleLine_comment _ comment (instrText_no_comment i), assembleLine_instrText]

/-- Settles O38: a decimal is a word of the line, and after `-` it stands for its two's complement. -/
theorem negativeOperandsAreTwosComplement : Obligations.NegativeOperandsAreTwosComplement := by
  intro ds v h
  have hline (i : Instr) : assembleLine (mnemonicChars i ++ ' ' :: '-' :: ds) = withOperand (mnemonicChars i) ('-' :: ds) :=
    assembleLine_operand i _ (wordChar_negative h) (List.cons_ne_nil _ _)
  refine ⟨fun hv => ⟨?_, ?_⟩, fun hv => ?_⟩
  · exact (hline (.seed 0)).trans (withOperand_seed (operand_negative h hv))
  · exact (hline (.mix 0)).trans (withOperand_mix (operand_negative h hv))
  · exact (hline (.bounded 0)).trans (withOperand_bounded (operand_negative h hv))

end Sys2Proof.Machine

namespace Sys2Proof.Machine

/-! ### The mixer and the seed expansion -/

/-- Two words that agree after a word is xored with its own right shift differ by a word that is its own right shift
(40_seeding.md R53). -/
theorem xor_ushiftRight_injective {n : Nat} (k : Nat) (hk : k ≠ 0) :
    Function.Injective (fun x : BitVec n => x ^^^ (x >>> k)) := by
  intro x y (h : x ^^^ (x >>> k) = y ^^^ (y >>> k))
  have hself : x ^^^ y = (x ^^^ y) >>> k := by
    rw [BitVec.ushiftRight_xor_distrib, ← BitVec.xor_eq_zero_iff]
    calc x ^^^ y ^^^ (x >>> k ^^^ y >>> k)
        = x ^^^ (x >>> k) ^^^ (y ^^^ (y >>> k)) := by ac_rfl
      _ = 0 := by rw [h, BitVec.xor_self]; rfl
  exact BitVec.xor_eq_zero_iff.1 (eq_zero_of_eq_ushiftRight _ k hk hself)

/-- `MUL1` is odd, so it has an inverse modulo 2^64 (40_seeding.md R50, R53). -/
theorem mul1_mul_inverse : mul1 * 0x96DE1B173F119089 = 1 := by decide

/-- So has `MUL2`. -/
theorem mul2_mul_inverse : mul2 * 0x319642B2D24D8EC3 = 1 := by decide

/-- Every step of the mixer is injective (40_seeding.md R53). -/
theorem mix_injective : Function.Injective mix := by
  have hadd : Function.Injective (· + golden) := add_left_injective golden
  have hmul1 : Function.Injective (· * mul1) := (IsUnit.of_mul_eq_one _ mul1_mul_inverse).mul_left_injective
  have hmul2 : Function.Injective (· * mul2) := (IsUnit.of_mul_eq_one _ mul2_mul_inverse).mul_left_injective
  exact (xor_ushiftRight_injective 31 (by decide)).comp <| hmul2.comp <|
    (xor_ushiftRight_injective 27 (by decide)).comp <| hmul1.comp <|
    (xor_ushiftRight_injective 30 (by decide)).comp hadd

theorem mix_bijective : Function.Bijective mix := Finite.injective_iff_bijective.1 mix_injective

theorem mix_eq_iff {u w : Word64} (h : mix u = w) (z : Word64) : mix z = w ↔ z = u := by
  rw [← h, mix_injective.eq_iff]

/-- The mixer's only zero is `2^64 - GOLDEN` (40_seeding.md R53). -/
theorem mix_eq_zero_iff (z : Word64) : mix z = 0 ↔ z = 0x61C8864680B583EB := mix_eq_iff (by decide) z

/-- Settles O24: the mixer composes an addition, two multiplications by odd constants and three xors with a right shift,
each injective, and the words are finitely many. -/
theorem mixIsABijection : Obligations.MixIsABijection := ⟨mix_bijective, mix_eq_zero_iff⟩

theorem guardZero_of_ne_zero (g : Gen) (h : g ≠ ⟨0, 0⟩) : guardZero g = g := if_neg h

/-- The zero guard never fires: both words would be the mixer's one zero, and they differ by `GOLDEN` (40_seeding.md R56). -/
theorem expand_eq (v : Word64) : expand v = ⟨mix (v + golden), mix (v + golden + golden)⟩ := by
  refine guardZero_of_ne_zero _ fun h => ?_
  obtain ⟨h0, h1⟩ := Gen.mk.inj h
  rw [mix_eq_zero_iff] at h0 h1
  rw [h0] at h1
  exact absurd h1 (by decide)

theorem expand_injective : Function.Injective expand := by
  intro v w h
  rw [expand_eq, expand_eq] at h
  exact add_right_cancel (mix_injective (Gen.mk.inj h).1)

/-- The mixer's preimage of the first fallback word. -/
theorem mix_eq_fallbackS0_iff (z : Word64) : mix z = fallbackS0 ↔ z = 0xCD36DA00563C5EF6 := mix_eq_iff (by decide) z

/-- A seed whose first word is the first fallback word has another second word. -/
theorem expand_ne_fallback (v : Word64) : expand v ≠ ⟨fallbackS0, fallbackS1⟩ := by
  intro h
  obtain ⟨h0, h1⟩ := Gen.mk.inj ((expand_eq v).symm.trans h)
  rw [mix_eq_fallbackS0_iff] at h0
  rw [h0] at h1
  exact absurd h1 (by decide)

/-- Settles O25: the mixer's one zero rules out the guard, its one preimage of the first fallback word rules out the
fallback pair, and the first word of the expansion already tells the seeds apart. -/
theorem expandIsInjectiveAndItsGuardIsDead : Obligations.ExpandIsInjectiveAndItsGuardIsDead :=
  ⟨expand_eq, expand_ne_fallback, expand_injective⟩

theorem markSeeded_eq (s : State) : markSeeded s = { s with seeded := true } := (rfl)

/-- Settles O2: SEED completes with the expansion of its operand, which is the pair of mixed words; they are not both 0, so
the guard of the statement is off as well. -/
theorem seedReplacesTheState : Obligations.SeedReplacesTheState := by
  intro v s z0 t0 t1 e0 e1
  have hexpand : expand v = ⟨t0, t1⟩ := expand_eq v
  have hguard : ¬ (t0 = 0 ∧ t1 = 0) := fun ⟨h0, h1⟩ => expand_ne_zero v (by rw [hexpand, h0, h1])
  have he0 : e0 = t0 := if_neg hguard
  have he1 : e1 = t1 := if_neg hguard
  rw [he0, he1]
  exact ⟨by rw [exec, execSeed_eq, complete_eq, markSeeded_eq, hexpand], hguard⟩

/-- Settles O3: MIX responds with the mixer's value. -/
theorem mixAnswersTheMixer : Obligations.MixAnswersTheMixer := by
  intro z s a b c
  rw [exec, execMix_eq, respond_eq, mix, golden, mul1, mul2]

end Sys2Proof.Machine

namespace Sys2Proof.Machine

/-! ### The state transition and NEXT64 -/

/-- Two words that agree after a word is xored with its own left shift differ by a word that is its own left shift
(41_generator.md R62). -/
theorem xor_shiftLeft_injective {n : Nat} (k : Nat) (hk : k ≠ 0) :
    Function.Injective (fun x : BitVec n => x ^^^ (x <<< k)) := by
  intro x y (h : x ^^^ (x <<< k) = y ^^^ (y <<< k))
  have hself : x ^^^ y = (x ^^^ y) <<< k := by
    rw [BitVec.shiftLeft_xor_distrib, ← BitVec.xor_eq_zero_iff]
    calc x ^^^ y ^^^ (x <<< k ^^^ y <<< k)
        = x ^^^ (x <<< k) ^^^ (y ^^^ (y <<< k)) := by ac_rfl
      _ = 0 := by rw [h, BitVec.xor_self]; rfl
  exact BitVec.xor_eq_zero_iff.1 (eq_zero_of_eq_shiftLeft _ k hk hself)

/-- The word `x2` of the transition, which depends on the old `s0` alone (41_generator.md R60). -/
def shiftedS0 (x : Word64) : Word64 := (x ^^^ (x <<< 23)) ^^^ ((x ^^^ (x <<< 23)) >>> 17)

theorem advance_mk (x y : Word64) : advance ⟨x, y⟩ = ⟨y, shiftedS0 x ^^^ y ^^^ (y >>> 26)⟩ := (rfl)

/-- Both xors with a shift are injective on the finitely many words (41_generator.md R62). -/
theorem shiftedS0_bijective : Function.Bijective shiftedS0 :=
  Finite.injective_iff_bijective.1 <|
    (xor_ushiftRight_injective 17 (by decide)).comp (xor_shiftLeft_injective 23 (by decide))

theorem advance_injective : Function.Injective advance := by
  rintro ⟨x, y⟩ ⟨x', y'⟩ h
  rw [advance_mk, advance_mk] at h
  obtain ⟨rfl, hx⟩ := Gen.mk.inj h
  rw [BitVec.xor_left_inj, BitVec.xor_left_inj] at hx
  rw [shiftedS0_bijective.injective hx]

/-- `(p, q)` comes from `y = p` and the `x` whose `x2` is `q ^ p ^ (p >> 26)` (41_generator.md R62). -/
theorem advance_surjective : Function.Surjective advance := by
  rintro ⟨p, q⟩
  obtain ⟨x, hx⟩ := shiftedS0_bijective.surjective (q ^^^ (p >>> 26) ^^^ p)
  refine ⟨⟨x, p⟩, ?_⟩
  simp [advance_mk, hx, BitVec.xor_assoc]

theorem advance_zero : advance ⟨0, 0⟩ = ⟨0, 0⟩ := by decide

/-- Settles O26: the new `s0` is the old `s1`, and once that is known the new `s1` gives back the old `s0`; (0, 0) is fixed and
has no other preimage. -/
theorem advanceIsABijection : Obligations.AdvanceIsABijection :=
  ⟨⟨advance_injective, advance_surjective⟩, fun g =>
    ⟨eq_zero_of_advance_eq_zero g, fun h => h ▸ advance_zero⟩⟩

theorem output_eq (g : Gen) : output g = BitVec.ofNat 64 (g.s0.toNat + g.s1.toNat) := BitVec.add_def _ _

/-- On a seeded block NEXT64 completes with one draw (41_generator.md R64). -/
theorem exec_next64_of_seeded (s : State) (h : s.seeded = true) :
    exec .next64 s = .next (complete (advance s.gen) (output s.gen) s) := by
  rw [exec, execNext64, requireSeeded_of_seeded _ _ h, drawOnce, draw]

/-- Settles O4: NEXT64 completes with the raw output and the transition of the words it found. -/
theorem next64AnswersTheSumAndSteps : Obligations.Next64AnswersTheSumAndSteps := by
  intro s h x1 x2 x3
  rw [exec_next64_of_seeded s h, complete_eq, output_eq, advance_s0, advance_s1, gen_s0, gen_s1]

end Sys2Proof.Machine

namespace Sys2Proof.Machine

/-! ### BOUNDED on the rejection path, one draw after another -/

theorem exec_bounded_of_rejectionPath {b : Word32} {s : State} (hb : RejectionPath b) (hs : s.seeded = true) :
    exec (.bounded b) s = .next (rejectOnce b s) := by
  obtain ⟨hpos, h2⟩ := (rejectionPath_iff b).1 hb
  simp [exec, execBounded, (nonPositive_eq_false_iff b).2 hpos, h2, hs]

theorem rejectOnce_of_accepts {b : Word32} {s : State} (h : accepts b (output (working s)) = true) :
    rejectOnce b s = complete (advance (working s)) (residue b (output (working s))) s := by
  simp [rejectOnce, draw, h]

theorem rejectOnce_of_rejects {b : Word32} {s : State} (h : accepts b (output (working s)) = false) :
    rejectOnce b s = holdDraw (advance (working s)) s := by
  simp [rejectOnce, draw, h]

/-- The block `n` steps later, when the BOUNDED in it has had `n` more draws rejected (42_bounded.md R73; log entry 2). -/
def State.afterRejections (s : State) : Nat → State
  | 0 => s
  | n + 1 => holdDraw (advance (working (s.afterRejections n))) (hostLater (s.afterRejections n))

/-- Rejected draws touch nothing but the words kept for the next draw, and the steps use up the host's inputs. -/
theorem afterRejections_eq (s : State) (n : Nat) :
    s.afterRejections n = { s with work := (s.afterRejections n).work, host := s.host.drop n } := by
  induction n with
  | zero => rfl
  | succ n ih =>
    rw [State.afterRejections, holdDraw_eq, hostLater_eq, ih, List.tail_drop]

/-- Each rejected draw advances the words the next one starts from (42_bounded.md R75). -/
theorem working_afterRejections (s : State) (n : Nat) :
    working (s.afterRejections n) = genAfter (working s) n := by
  induction n with
  | zero => rfl
  | succ n ih =>
    rw [State.afterRejections, working_of_some _ _ (holdDraw_work _ _), ih, genAfter_succ]

@[simp] theorem afterRejections_rsp (s : State) (n : Nat) : (s.afterRejections n).rsp = s.rsp := by
  rw [afterRejections_eq]

@[simp] theorem afterRejections_cmd (s : State) (n : Nat) : (s.afterRejections n).cmd = s.cmd := by
  rw [afterRejections_eq]

@[simp] theorem afterRejections_seeded (s : State) (n : Nat) : (s.afterRejections n).seeded = s.seeded := by
  rw [afterRejections_eq]

@[simp] theorem afterRejections_trace (s : State) (n : Nat) : (s.afterRejections n).trace = s.trace := by
  rw [afterRejections_eq]

@[simp] theorem afterRejections_host (s : State) (n : Nat) : (s.afterRejections n).host = s.host.drop n := by
  rw [afterRejections_eq]

@[simp] theorem afterRejections_gen (s : State) (n : Nat) : (s.afterRejections n).gen = s.gen := by
  rw [afterRejections_eq, State.gen, State.gen]

/-- The step that takes the record number `n` of the host's inputs sees no reset. -/
theorem rst_of_noReset {s u : State} {n k : Nat} (h : NoReset s k) (hn : n < k) (hu : u.host = s.host.drop n) :
    (hostNow u).rst = false := by
  cases hd : s.host.drop n with
  | nil => rw [hostNow_of_nil u (hu.trans hd), quiet_rst]
  | cons now later =>
    rw [hostNow_cons u now later (hu.trans hd)]
    have hget : s.host[n]? = some now := by rw [← List.head?_drop, hd, List.head?_cons]
    obtain ⟨hlen, hnow⟩ := List.getElem?_eq_some_iff.1 hget
    exact h now (List.mem_take_iff_getElem.2 ⟨n, lt_min hn hlen, hnow⟩)

theorem NoReset.mono {s : State} {m n : Nat} (h : NoReset s n) (hmn : m ≤ n) : NoReset s m :=
  fun a ha => h a (List.take_subset_take_left _ hmn ha)

/-- A block that executes a BOUNDED still does so after rejected draws. -/
theorem executing_afterRejections {s : State} {w : CmdWord} {n : Nat} (hw : Executing s w) (hr : NoReset s (n + 1)) :
    Executing (s.afterRejections n) w := by
  obtain ⟨hc, hn, -⟩ := hw
  exact ⟨by rw [afterRejections_cmd, hc], by rw [afterRejections_rsp, hn],
    rst_of_noReset hr n.lt_succ_self (afterRejections_host s n)⟩

section
variable {b : Word32} {s : State} {n : Nat} (hb : RejectionPath b) (hw : Executing s (encode (.bounded b)))
  (hs : s.seeded = true)
include hb hw hs

/-- After `n` rejected draws the step makes the next draw. -/
theorem step_afterRejections (hr : NoReset s (n + 1)) :
    step (s.afterRejections n) = .next (rejectOnce b (hostLater (s.afterRejections n))) := by
  rw [step_of_executing_instr (executing_afterRejections hw hr) (decode_encode _)]
  exact exec_bounded_of_rejectionPath hb (by rw [hostLater_seeded, afterRejections_seeded, hs])

/-- While every draw is rejected the block runs on without a response (42_bounded.md R76, 70_reset_and_hazards.md R125). -/
theorem runs_afterRejections (hr : NoReset s n) (hrej : ∀ k < n, accepts b (rawAfter (working s) k) = false) :
    Runs n s (s.afterRejections n) := by
  induction n with
  | zero => exact (runs_zero _ _).2 rfl
  | succ n ih =>
    refine runs_append n 1 _ _ _ (ih (hr.mono n.le_succ) fun k hk => hrej k (Nat.lt_succ_of_lt hk)) (runs_one _ _ ?_)
    have ha : accepts b (output (working (hostLater (s.afterRejections n)))) = false := by
      rw [working_hostLater, working_afterRejections]
      exact hrej n n.lt_succ_self
    rw [step_afterRejections hb hw hs hr, rejectOnce_of_rejects ha, working_hostLater, State.afterRejections]

/-- The first accepted draw completes the command (42_bounded.md R73, R75). -/
theorem runs_accepted (hr : NoReset s (n + 1)) (hrej : ∀ k < n, accepts b (rawAfter (working s) k) = false)
    (hacc : accepts b (rawAfter (working s) n) = true) :
    Runs (n + 1) s (complete (genAfter (working s) (n + 1)) (residue b (rawAfter (working s) n))
      { s with host := s.host.drop (n + 1) }) := by
  refine runs_append n 1 _ _ _ (runs_afterRejections hb hw hs (hr.mono n.le_succ) hrej) (runs_one _ _ ?_)
  have hdraw : working (hostLater (s.afterRejections n)) = genAfter (working s) n := by
    rw [working_hostLater, working_afterRejections]
  have hlater : hostLater (s.afterRejections n) =
      { s with work := (s.afterRejections n).work, host := s.host.drop (n + 1) } := by
    rw [hostLater_eq, afterRejections_host, List.tail_drop, afterRejections_eq]
  rw [rawAfter] at hacc
  rw [step_afterRejections hb hw hs hr, rejectOnce_of_accepts (by rw [hdraw, hacc]), hdraw, ← genAfter_succ, hlater,
    complete_eq, complete_eq, rawAfter]

end

/-- Settles O8: the run through the rejected draws, and the step that accepts the next one. -/
theorem boundedAnswersFromFirstAcceptedDraw : Obligations.BoundedAnswersFromFirstAcceptedDraw := by
  intro b s n T r hb hw hs hwork hr hrej hacc
  have hgen : working s = s.gen := working_of_none s hwork
  have hn : s.rsp = none := hw.2.1
  have hrej' : ∀ k < n, accepts b (rawAfter (working s) k) = false := fun k hk => by
    rw [hgen, accepts_eq_false_iff]
    exact hrej k hk
  have hacc' : accepts b (rawAfter (working s) n) = true := by
    rw [hgen, accepts_iff]
    exact hacc
  refine ⟨fun m hm => ⟨s.afterRejections m, ?_, ?_⟩, ?_⟩
  · exact runs_afterRejections hb hw hs (hr.mono (Nat.le_succ_of_le hm)) fun k hk => hrej' k (hk.trans_le hm)
  · simp [hs, hn]
  · have hrun := runs_accepted hb hw hs hr hrej' hacc'
    rw [hgen, complete_eq, residue_eq] at hrun
    exact hrun

/-- Settles O9: if no draw is accepted, every run stays among the rejected draws; if some draw is, the first such draw
answers. -/
theorem boundedIsAnsweredIffSomeDrawIsAccepted : Obligations.BoundedIsAnsweredIffSomeDrawIsAccepted := by
  intro b s hb hw hs hwork hhost
  have hr : ∀ n, NoReset s n := fun n h hh => hhost h (List.mem_of_mem_take hh)
  have hgen : working s = s.gen := working_of_none s hwork
  have hn : s.rsp = none := hw.2.1
  simp only [← accepts_iff, ← hgen]
  constructor
  · rintro ⟨n, t, hrun, ht⟩
    by_contra! hnone
    have hrej : ∀ k < n, accepts b (rawAfter (working s) k) = false := fun k _ => Bool.eq_false_iff.2 (hnone k)
    rw [runs_unique n s t _ hrun (runs_afterRejections hb hw hs (hr n) hrej), rspValid, afterRejections_rsp, hn] at ht
    cases ht
  · intro h
    have hrej : ∀ k < Nat.find h, accepts b (rawAfter (working s) k) = false := fun k hk =>
      Bool.eq_false_iff.2 (Nat.find_min h hk)
    exact ⟨_, _, runs_accepted hb hw hs (hr _) hrej (Nat.find_spec h), by rw [rspValid, complete_rsp, Option.isSome_some]⟩

end Sys2Proof.Machine

namespace Sys2Proof.Machine

/-! ### The argument check, the mask path, one draw of the rejection path, and the range of the answers -/

/-- A 32-bit pattern is not positive when it is 0 or has its sign bit set (42_bounded.md R71). -/
theorem toInt_nonpos_iff (b : Word32) : b.toInt ≤ 0 ↔ b = 0 ∨ b.getLsbD 31 = true := by
  have hzero : b = 0 ↔ b.toNat = 0 := by rw [← BitVec.toNat_inj]; rfl
  have hsign : b.getLsbD 31 = true ↔ 2 ^ 31 ≤ b.toNat := by
    rw [← BitVec.msb_eq_getLsbD_last, BitVec.msb_eq_decide, decide_eq_true_iff]
  rw [← not_lt, toInt_pos_iff, hzero, hsign]
  omega

theorem exec_bounded_of_nonpos {b : Word32} (s : State) (hb : b.toInt ≤ 0) :
    exec (.bounded b) s = .next (fail .invalidArgument s) := by
  simp [exec, execBounded, (nonPositive_iff b).2 hb]

/-- Settles O5: only the argument check of BOUNDED answers INVALID_ARGUMENT, as every answer is a legal one to its word. -/
theorem invalidArgumentIsForNonPositiveBounds : Obligations.InvalidArgumentIsForNonPositiveBounds := by
  refine ⟨toInt_nonpos_iff, fun b s hb => ?_, fun i s t r hn h hr hst => ?_⟩
  · rw [exec_bounded_of_nonpos s hb, fail_eq]
  · obtain ⟨b, hd, hb⟩ := (answers_of_exec (decode_encode i) hn h r hr).invalid_iff.1 hst
    rw [decode_encode, Decoded.instr.injEq] at hd
    exact ⟨b, hd, hb⟩

theorem toNat_two_pow {k : Nat} (hk : k ≤ 30) : (BitVec.ofNat 32 (2 ^ k)).toNat = 2 ^ k :=
  Nat.mod_eq_of_lt (Nat.pow_lt_pow_right (by decide) (by omega))

theorem toInt_two_pow_pos {k : Nat} (hk : k ≤ 30) : 0 < (BitVec.ofNat 32 (2 ^ k)).toInt := by
  rw [toInt_pos_iff, toNat_two_pow hk]
  exact ⟨Nat.two_pow_pos k, Nat.pow_lt_pow_right (by decide) (by omega)⟩

/-- The positive powers of two are `2^0` to `2^30`: `2^31` is no positive `i32` (42_bounded.md R72). -/
theorem toNat_eq_two_pow_iff {b : Word32} (hb : 0 < b.toInt) :
    (∃ k, b.toNat = 2 ^ k) ↔ ∃ k, k ≤ 30 ∧ b = BitVec.ofNat 32 (2 ^ k) := by
  constructor
  · rintro ⟨k, hk⟩
    have hlt : 2 ^ k < 2 ^ 31 := hk ▸ ((toInt_pos_iff b).1 hb).2
    have hk30 : k ≤ 30 := Nat.le_of_lt_succ ((Nat.pow_lt_pow_iff_right (by decide)).1 hlt)
    exact ⟨k, hk30, BitVec.eq_of_toNat_eq (by rw [hk, toNat_two_pow hk30])⟩
  · rintro ⟨k, hk, rfl⟩
    exact ⟨k, toNat_two_pow hk⟩

theorem powerOfTwo_two_pow {k : Nat} (hk : k ≤ 30) : powerOfTwo (BitVec.ofNat 32 (2 ^ k)) = true :=
  (powerOfTwo_iff _ (toInt_two_pow_pos hk)).2 ⟨k, toNat_two_pow hk⟩

/-- The mask of `2^k` keeps the low `k` bits, and the truncation to 32 bits removes nothing (42_bounded.md R72). -/
theorem maskDraw_two_pow {k : Nat} (hk : k ≤ 30) (w : Word64) :
    maskDraw (BitVec.ofNat 32 (2 ^ k)) w = BitVec.ofNat 64 (w.toNat % 2 ^ k) := by
  have hpos : 0 < (BitVec.ofNat 32 (2 ^ k)).toNat := by rw [toNat_two_pow hk]; exact Nat.two_pow_pos k
  have hk32 : 2 ^ k < 2 ^ 32 := Nat.pow_lt_pow_right (by decide) (by omega)
  have hmod : w.toNat % 2 ^ k < 2 ^ k := Nat.mod_lt _ (Nat.two_pow_pos k)
  have hmask : (w &&& zext64 (BitVec.ofNat 32 (2 ^ k) - 1)).toNat = w.toNat % 2 ^ k := by
    rw [BitVec.toNat_and, zext64, BitVec.toNat_setWidth, pred_toNat _ hpos, toNat_two_pow hk,
      Nat.mod_eq_of_lt (by omega), Nat.and_two_pow_sub_one_eq_mod]
  apply BitVec.eq_of_toNat_eq
  rw [maskDraw, zext64, trunc32, BitVec.toNat_setWidth, BitVec.toNat_setWidth, hmask, BitVec.toNat_ofNat,
    Nat.mod_eq_of_lt (hmod.trans hk32)]

theorem exec_bounded_of_powerOfTwo {b : Word32} {s : State} (hb : 0 < b.toInt) (h2 : powerOfTwo b = true)
    (hs : s.seeded = true) : exec (.bounded b) s = .next (complete (advance s.gen) (maskDraw b (output s.gen)) s) := by
  simp [exec, execBounded, (nonPositive_eq_false_iff b).2 hb, h2, hs, drawOnce, draw]

/-- Settles O6: the test finds the powers of two, and their mask keeps the low bits of the one draw. -/
theorem powerOfTwoBoundsMaskOneDraw : Obligations.PowerOfTwoBoundsMaskOneDraw := by
  refine ⟨fun b hb => ?_, fun k s hk hs => ?_⟩
  · rw [← toNat_eq_two_pow_iff hb, ← powerOfTwo_iff b hb, powerOfTwo, beq_iff_eq]
  · rw [exec_bounded_of_powerOfTwo (toInt_two_pow_pos hk) (powerOfTwo_two_pow hk) hs, maskDraw_two_pow hk, complete_eq,
      genAfter_one, rawAfter_zero]

/-- Settles O7: on the rejection path the draw is accepted exactly below the threshold, and completes or is kept. -/
theorem rejectionPathAcceptsBelowThreshold : Obligations.RejectionPathAcceptsBelowThreshold := by
  intro b s hb hs g r T
  have hg : working s = g := by rw [working, State.gen]
  rw [exec_bounded_of_rejectionPath hb hs]
  refine ⟨fun h => ?_, fun h => ?_⟩
  · have hacc : accepts b (output (working s)) = true := by rw [hg, accepts_iff]; exact h
    rw [rejectOnce_of_accepts hacc, complete_eq, residue_eq, hg, output]
  · have hrej : accepts b (output (working s)) = false := by rw [hg, accepts_eq_false_iff]; exact h
    rw [rejectOnce_of_rejects hrej, holdDraw_eq, hg]

/-! ### The threshold -/

theorem dvd_threshold (b : Nat) : b ∣ threshold b := Nat.dvd_sub_mod _

/-- A bound on the rejection path is positive, below 2^31 and not 2^30 (42_bounded.md R73). -/
theorem RejectionPath.range {b : Word32} (hb : RejectionPath b) : 0 < b.toNat ∧ b.toNat < 2 ^ 31 ∧ b.toNat ≠ 2 ^ 30 := by
  obtain ⟨hpos, h2⟩ := hb
  obtain ⟨h0, hlt⟩ := (toInt_pos_iff b).1 hpos
  exact ⟨h0, hlt, fun h => h2 ⟨30, h⟩⟩

/-- A bound below 2^30 leaves a remainder below itself; one above it divides INT32_MAX once (42_bounded.md R74). -/
theorem two_pow_30_lt_threshold {b : Nat} (h0 : 0 < b) (hlt : b < 2 ^ 31) (hne : b ≠ 2 ^ 30) : 2 ^ 30 < threshold b := by
  rw [threshold_eq]
  obtain hsmall | hlarge := Nat.lt_or_gt_of_ne hne
  · have := Nat.mod_lt 2147483647 h0
    omega
  · have : 2147483647 % b = 2147483647 - b := by
      rw [Nat.mod_eq_sub_mod (by omega), Nat.mod_eq_of_lt (by omega)]
    omega

/-- Below a multiple of `b` every residue occurs equally often (42_bounded.md R74). -/
theorem card_residue_of_dvd {b c T : Nat} (hdvd : b ∣ T) (hc : c < b) :
    ((Finset.range T).filter (fun r => r % b = c)).card = T / b := by
  have hcount := Nat.count_modEq_card T (Nat.zero_lt_of_lt hc) c
  rw [Nat.count_eq_card_filter_range, Nat.mod_eq_zero_of_dvd hdvd, if_neg (Nat.not_lt_zero _), Nat.add_zero] at hcount
  simpa only [Nat.ModEq, Nat.mod_eq_of_lt hc] using hcount

/-- Settles O27, from the size of the bound and the threshold being a multiple of it. -/
theorem thresholdRemovesTheBias : Obligations.ThresholdRemovesTheBias := by
  intro b hb T
  obtain ⟨h0, hlt, hne⟩ := hb.range
  have hT : T = 2 ^ 31 - 1 - (2 ^ 31 - 1) % b.toNat := threshold_eq _
  have hlow : 2 ^ 30 < T := two_pow_30_lt_threshold h0 hlt hne
  have hmod := Nat.mod_lt (2 ^ 31 - 1) h0
  have hle := Nat.mod_le (2 ^ 31 - 1) b.toNat
  refine ⟨dvd_threshold _, hlow, ?_, ?_, ?_, ?_, fun c hc => card_residue_of_dvd (dvd_threshold _) hc⟩ <;> omega

/-! ### The range of the answers -/

/-- A result below a signed bound reads the same as `i32` (42_bounded.md R77). -/
theorem readInt32_eq_toNat {v : Word64} {b : Word32} (h : (v.toNat : Int) < b.toInt) : readInt32 v = v.toNat := by
  have hb := (toInt_pos_iff b).1 (by omega)
  rw [toInt_eq_toNat_of_pos b (by omega)] at h
  have hv : (trunc32 v).toNat = v.toNat := by
    rw [trunc32, BitVec.toNat_setWidth, Nat.mod_eq_of_lt (by omega)]
  rw [readInt32, BitVec.toInt_eq_toNat_of_lt (by omega), hv]

/-- Settles O28: an OK answer to BOUNDED is a legal one, so below the bound, where both readings agree. -/
theorem boundedResultsLieBelowTheBound : Obligations.BoundedResultsLieBelowTheBound := by
  intro b s t r hn h hr hok
  have hlt : (r.result.toNat : Int) < b.toInt := by
    have hres := (answers_of_exec (decode_encode _) hn h r hr).ok_result hok
    rwa [decode_encode] at hres
  rw [readInt32_eq_toNat hlt]
  exact ⟨hlt, Int.natCast_nonneg _, hlt, rfl⟩

end Sys2Proof.Machine

namespace Sys2Proof.Machine

/-! ### The floating-point converters -/

/-- On a seeded block F64 completes with one draw (43_float.md R82). -/
theorem exec_f64_of_seeded (s : State) (h : s.seeded = true) :
    exec .f64 s = .next (complete (advance s.gen) (f64bits (top53 (output s.gen))) s) := by
  rw [exec, execF64, requireSeeded_of_seeded _ _ h, drawOnce, draw]

/-- On a seeded block F32 completes with one draw (43_float.md R85). -/
theorem exec_f32_of_seeded (s : State) (h : s.seeded = true) :
    exec .f32 s = .next (complete (advance s.gen) (zext64 (f32bits (top24 (output s.gen)))) s) := by
  rw [exec, execF32, requireSeeded_of_seeded _ _ h, drawOnce, draw]

theorem output_gen (s : State) : output s.gen = s.s0 + s.s1 := by rw [output, gen_s0, gen_s1]

/-- Settles O10: the one pattern is that of the top 53 bits of the raw output, which denotes their value over `2^53`. -/
theorem f64AnswersTopBitsAsDouble : Obligations.F64AnswersTopBitsAsDouble := by
  intro s hs m
  have hm : (top53 (s.s0 + s.s1)).toNat = m := top53_toNat _
  refine ⟨f64bits (top53 (s.s0 + s.s1)), ?_, ?_, hm ▸ (top53 _).isLt⟩
  · rw [exec_f64_of_seeded s hs, complete_eq, output_gen, genAfter_one]
  · rw [binary64Value_f64bits, hm]

/-- Settles O11: the one pattern is that of the top 24 bits of the raw output, which denotes their value over `2^24`. -/
theorem f32AnswersTopBitsAsSingle : Obligations.F32AnswersTopBitsAsSingle := by
  intro s hs m
  have hm : (top24 (s.s0 + s.s1)).toNat = m := top24_toNat _
  refine ⟨f32bits (top24 (s.s0 + s.s1)), ?_, ?_, hm ▸ (top24 _).isLt⟩
  · rw [exec_f32_of_seeded s hs, complete_eq, output_gen, genAfter_one, zext64]
  · rw [binary32Value_f32bits, hm]

/-- The position of the most significant 1 bit is determined by the powers of two around the number. -/
theorem topBit_eq {m n k : Nat} (h : m < 2 ^ n) (hlo : 2 ^ k ≤ m) (hhi : m < 2 ^ (k + 1)) : topBit m n = k := by
  have hm0 : m ≠ 0 := Nat.ne_of_gt (lt_of_lt_of_le (Nat.two_pow_pos k) hlo)
  obtain ⟨-, hlo', hhi'⟩ := topBit_spec m n hm0 h
  have hle : topBit m n < k + 1 := (Nat.pow_lt_pow_iff_right (by decide)).1 (hlo'.trans_lt hhi)
  have hge : k < topBit m n + 1 := (Nat.pow_lt_pow_iff_right (by decide)).1 (hlo.trans_lt hhi')
  omega

/-- A word that is at least a power of two is not 0. -/
theorem ne_zero_of_two_pow_le {n k : Nat} {m : BitVec n} (h : 2 ^ k ≤ m.toNat) : m ≠ 0 := by
  rintro rfl
  exact absurd h (by simp)

/-- The fields of the binary64 pattern of `m`, leading 1 at bit `k` (43_float.md R81). -/
theorem f64bits_fields {m : BitVec 53} {k : Nat} (hlo : 2 ^ k ≤ m.toNat) (hhi : m.toNat < 2 ^ (k + 1)) :
    (f64bits m).toNat = (970 + k) * 2 ^ 52 + m.toNat * 2 ^ (52 - k) % 2 ^ 52 := by
  obtain ⟨hp, hlow, hhigh⟩ := f64bits_toNat m (ne_zero_of_two_pow_le hlo)
  rw [topBit_eq m.isLt hlo hhi] at hp hlow hhigh
  omega

/-- The fields of the binary32 pattern of `m`, leading 1 at bit `k` (43_float.md R84). -/
theorem f32bits_fields {m : BitVec 24} {k : Nat} (hlo : 2 ^ k ≤ m.toNat) (hhi : m.toNat < 2 ^ (k + 1)) :
    (f32bits m).toNat = (103 + k) * 2 ^ 23 + m.toNat * 2 ^ (23 - k) % 2 ^ 23 := by
  obtain ⟨hp, hlow, hhigh⟩ := f32bits_toNat m (ne_zero_of_two_pow_le hlo)
  rw [topBit_eq m.isLt hlo hhi] at hp hlow hhigh
  omega

theorem f64bits_zero : f64bits 0 = 0 := by rw [f64bits, if_pos rfl]

theorem f32bits_zero : f32bits 0 = 0 := by rw [f32bits, if_pos rfl]

/-- Settles O41: the value of each pattern, the zero pattern, and the fields once the leading 1 is located. -/
theorem floatPatternsHoldTheStatedFields : Obligations.FloatPatternsHoldTheStatedFields :=
  ⟨fun m => ⟨binary64Value_f64bits m, fun h => h ▸ f64bits_zero, fun _ => f64bits_fields⟩,
   fun m => ⟨binary32Value_f32bits m, fun h => h ▸ f32bits_zero, fun _ => f32bits_fields⟩⟩

/-- Settles O42: the three commands complete with the same transition, each with its own reading of the one raw output. -/
theorem convertersReadTheRawOutputOfNext64 : Obligations.ConvertersReadTheRawOutputOfNext64 := by
  intro s hs
  refine ⟨output s.gen, _, _, _, exec_next64_of_seeded s hs, complete_rsp _ _ _, exec_f64_of_seeded s hs, ?_,
    exec_f32_of_seeded s hs, ?_, ?_, ?_⟩
  · rw [complete_rsp, top53]
  · rw [complete_rsp, top24, zext64]
  · rw [complete_gen, complete_gen]
  · rw [complete_gen, complete_gen]

end Sys2Proof.Machine

namespace Sys2Proof.Machine

/-! ### The responses as a function of the command words -/

/-- What the rest of a command's execution can depend on: the block without the host's inputs and the delivered pairs, and
without the words of an unseeded block (44_pseudo_ops.md R98; log entry 1). -/
def State.view (s : State) : State :=
  { s with s0 := if s.seeded then s.s0 else 0, s1 := if s.seeded then s.s1 else 0, host := [], trace := [] }

@[simp] theorem view_seeded (s : State) : s.view.seeded = s.seeded := (rfl)
@[simp] theorem view_cmd (s : State) : s.view.cmd = s.cmd := (rfl)
@[simp] theorem view_rsp (s : State) : s.view.rsp = s.rsp := (rfl)
@[simp] theorem view_host (s : State) : s.view.host = [] := (rfl)
@[simp] theorem hostLater_view (s : State) : hostLater s.view = s.view := (rfl)
@[simp] theorem view_hostLater (s : State) : (hostLater s).view = s.view := (rfl)
@[simp] theorem view_resetBlock (s : State) : (resetBlock s).view = State.reset.view := (rfl)

theorem view_gen_of_seeded {s : State} (hs : s.seeded = true) : s.view.gen = s.gen := by
  rw [State.gen, State.view, if_pos hs, if_pos hs, State.gen]

theorem working_view_of_seeded {s : State} (hs : s.seeded = true) : working s.view = working s := by
  rw [working, view_gen_of_seeded hs]
  rfl

theorem respond_view (st : Status) (v : Word64) (s : State) : respond st v s.view = (respond st v s).view := (rfl)
theorem fail_view (st : Status) (s : State) : fail st s.view = (fail st s).view := (rfl)
theorem holdDraw_view (g : Gen) (s : State) : holdDraw g s.view = (holdDraw g s).view := (rfl)
theorem complete_markSeeded_view (g : Gen) (v : Word64) (s : State) :
    complete g v (markSeeded s.view) = (complete g v (markSeeded s)).view := (rfl)

theorem accept_some_view (w : CmdWord) (s : State) : accept (some w) s.view = (accept (some w) s).view := (rfl)

theorem complete_view_of_seeded {s : State} (g : Gen) (v : Word64) (hs : s.seeded = true) :
    complete g v s.view = (complete g v s).view := by
  rw [complete_eq, complete_eq, State.view, State.view]
  simp only [hs, if_true]

theorem deliver_view (w : CmdWord) (r : Response) (s : State) :
    (deliver true w r s.view).view = (deliver true w r s).view := by
  rw [deliver_ready, deliver_ready, State.view, State.view, State.view]
  cases s.seeded <;> rfl


theorem drawOnce_view_of_seeded {s : State} (f : Word64 → Word64) (hs : s.seeded = true) :
    drawOnce f s.view = (drawOnce f s).view := by
  rw [drawOnce, drawOnce, view_gen_of_seeded hs, complete_view_of_seeded _ _ hs]

theorem rejectOnce_view_of_seeded {s : State} (b : Word32) (hs : s.seeded = true) :
    rejectOnce b s.view = (rejectOnce b s).view := by
  rw [rejectOnce, rejectOnce, working_view_of_seeded hs, complete_view_of_seeded _ _ hs, holdDraw_view]
  split <;> rfl

/-- On a seeded block a command does the same to the view as to the block. -/
theorem exec_view_of_seeded {i : Instr} {s t : State} (hs : s.seeded = true) (h : exec i s = .next t) :
    exec i s.view = .next t.view := by
  have go (u : State) : requireSeeded s u = u := requireSeeded_of_seeded s u hs
  have goView (u : State) : requireSeeded s.view u = u := requireSeeded_of_seeded s.view u hs
  cases i with
  | seed v =>
    rw [exec, execSeed_eq, Host.Outcome.next.injEq] at h
    rw [exec, execSeed_eq, complete_markSeeded_view, h]
  | mix z =>
    rw [exec, execMix_eq, Host.Outcome.next.injEq] at h
    rw [exec, execMix_eq, respond_view, h]
  | next64 =>
    rw [exec, execNext64, go, Host.Outcome.next.injEq] at h
    rw [exec, execNext64, goView, drawOnce_view_of_seeded _ hs, h]
  | f64 =>
    rw [exec, execF64, go, Host.Outcome.next.injEq] at h
    rw [exec, execF64, goView, drawOnce_view_of_seeded _ hs, h]
  | f32 =>
    rw [exec, execF32, go, Host.Outcome.next.injEq] at h
    rw [exec, execF32, goView, drawOnce_view_of_seeded _ hs, h]
  | bounded b =>
    rw [exec, execBounded, go, Host.Outcome.next.injEq] at h
    rw [exec, execBounded, goView, fail_view, drawOnce_view_of_seeded _ hs, rejectOnce_view_of_seeded b hs, ← h]
    split
    · rfl
    · split <;> rfl

/-- So does it on an unseeded block, whose words play no part (10_state.md R20). -/
theorem exec_view {i : Instr} {s t : State} (h : exec i s = .next t) : exec i s.view = .next t.view := by
  cases hs : s.seeded with
  | true => exact exec_view_of_seeded hs h
  | false =>
    obtain ⟨v, rfl⟩ | ⟨st, v, e⟩ := exec_unseeded_cases i
    · rw [exec, execSeed_eq, Host.Outcome.next.injEq] at h
      rw [exec, execSeed_eq, complete_markSeeded_view, h]
    · rw [e s hs, Host.Outcome.next.injEq] at h
      rw [e s.view hs, respond_view, h]

/-- The view of a block that executes a command takes the same step. -/
theorem step_view_of_executing {s t : State} {w : CmdWord} (hw : Executing s w) (h : step s = .next t) :
    step s.view = .next t.view := by
  have hv : Executing s.view w := by
    obtain ⟨hc, hn, -⟩ := hw
    exact ⟨hc, hn, rfl⟩
  cases hd : decode w with
  | instr i =>
    rw [step_of_executing_instr hw hd] at h
    rw [step_of_executing_instr hv hd, hostLater_view, ← view_hostLater, exec_view h]
  | illegal why =>
    rw [step_of_executing_illegal hw hd, Host.Outcome.next.injEq] at h
    rw [step_of_executing_illegal hv hd, hostLater_view, ← view_hostLater, fail_view, h]

/-- The view of a block that holds a response keeps it for ever: it has no host to take it. -/
theorem runs_view_of_answered {s : State} {w : CmdWord} {r : Response} (hc : s.cmd = some w) (hr : s.rsp = some r)
    (n : Nat) : Runs n s.view s.view := by
  induction n with
  | zero => exact (runs_zero _ _).2 rfl
  | succ n ih => exact ⟨s.view, step_of_answered s.view w r rfl hc hr, ih⟩

/-- Two runs from one state that end in views of answered blocks end in the same one. -/
theorem view_eq_of_runs_answered {x s t : State} {m n : Nat} {w : CmdWord} {r r' : Response}
    (hc : s.cmd = some w) (hr : s.rsp = some r) (hs : Runs m x s.view)
    (hc' : t.cmd = some w) (hr' : t.rsp = some r') (ht : Runs n x t.view) : s.view = t.view := by
  refine runs_unique (m + n) x _ _ (runs_append m n _ _ _ hs (runs_view_of_answered hc hr n)) ?_
  rw [Nat.add_comm]
  exact runs_append n m _ _ _ ht (runs_view_of_answered hc' hr' m)

/-- A list of delivered pairs and the view of the idle block that has delivered them: at reset none; then one command after
the other is accepted, executed without interruption until it is answered, and its response delivered. -/
inductive Answered : List (CmdWord × Response) → State → Prop where
  | reset : Answered [] State.reset.view
  | deliver {ps : List (CmdWord × Response)} {b s : State} {n : Nat} {w : CmdWord} {r : Response} (h : Answered ps b)
      (hrun : Runs n (accept (some w) b) s.view) (hc : s.cmd = some w) (hr : s.rsp = some r) :
      Answered (ps ++ [(w, r)]) (deliver true w r s).view

/-- The command words alone determine the responses and the block they leave (44_pseudo_ops.md R98). -/
theorem Answered.unique {ps qs : List (CmdWord × Response)} {b c : State} (hp : Answered ps b) (hq : Answered qs c)
    (h : ps.map Prod.fst = qs.map Prod.fst) : ps = qs ∧ b = c := by
  induction hp generalizing qs c with
  | reset =>
    cases hq with
    | reset => exact ⟨rfl, rfl⟩
    | deliver => simp at h
  | @deliver ps b s m w r _ hrun hc hr ih =>
    cases hq with
    | reset => simp at h
    | @deliver qs c t n w' r' hq hrun' hc' hr' =>
      simp only [List.map_append, List.map_cons, List.map_nil] at h
      obtain ⟨hps, hw⟩ := List.append_inj' h rfl
      obtain rfl : w = w' := by simpa using hw
      obtain ⟨rfl, rfl⟩ := ih hq hps
      have hview : s.view = t.view := view_eq_of_runs_answered hc hr hrun hc' hr' hrun'
      obtain rfl : r = r' := by
        rw [← view_rsp, hview, view_rsp, hr'] at hr
        exact (Option.some.inj hr).symm
      exact ⟨rfl, by rw [← deliver_view, hview, deliver_view]⟩

/-- How the block came to what it shows now: what it has delivered is answered in turn, and from the idle block this left,
the command in the block, if any, has been accepted and executed so far. -/
def Explained (s : State) : Prop :=
  ∃ b, Answered s.trace b ∧
    match s.cmd with
    | none => s.view = b
    | some w => ∃ n, Runs n (accept (some w) b) s.view

theorem explained_of_idle {s : State} (hc : s.cmd = none) (h : Answered s.trace s.view) : Explained s :=
  ⟨s.view, h, by rw [hc]⟩

theorem explained_of_busy {s b : State} {w : CmdWord} {n : Nat} (hc : s.cmd = some w) (h : Answered s.trace b)
    (hrun : Runs n (accept (some w) b) s.view) : Explained s :=
  ⟨b, h, by rw [hc]; exact ⟨n, hrun⟩⟩

theorem Explained.answered_of_idle {s : State} (h : Explained s) (hc : s.cmd = none) : Answered s.trace s.view := by
  obtain ⟨b, hb, hs⟩ := h
  rw [hc] at hs
  obtain rfl : s.view = b := hs
  exact hb

theorem Explained.runs_of_busy {s : State} {w : CmdWord} (h : Explained s) (hc : s.cmd = some w) :
    ∃ b n, Answered s.trace b ∧ Runs n (accept (some w) b) s.view := by
  obtain ⟨b, hb, hs⟩ := h
  rw [hc] at hs
  obtain ⟨n, hn⟩ := hs
  exact ⟨b, n, hb, hn⟩

theorem explained_resetBlock (s : State) : Explained (resetBlock s) :=
  explained_of_idle rfl Answered.reset

theorem Explained.accept {s : State} (h : Explained s) (hc : s.cmd = none) (c : Option CmdWord) :
    Explained (accept c (hostLater s)) := by
  have hs := h.answered_of_idle hc
  cases c with
  | none => exact explained_of_idle hc hs
  | some w => exact explained_of_busy rfl hs ((runs_zero _ _).2 (accept_some_view w s))

theorem Explained.execute {s t : State} {w : CmdWord} (h : Explained s) (hw : Executing s w) (ht : step s = .next t) :
    Explained t := by
  obtain ⟨hc, hn, hrst⟩ := hw
  obtain ⟨b, n, hb, hrun⟩ := h.runs_of_busy hc
  obtain ⟨hcmd, htrace⟩ | ⟨r, hr, -⟩ := step_of_busy_cases hrst hc ht
  · exact explained_of_busy hcmd (htrace ▸ hb)
      (runs_append n 1 _ _ _ hrun (runs_one _ _ (step_view_of_executing ⟨hc, hn, hrst⟩ ht)))
  · simp [hn] at hr

theorem Explained.deliver {s : State} {w : CmdWord} {r : Response} (h : Explained s) (hc : s.cmd = some w)
    (hr : s.rsp = some r) (ready : Bool) : Explained (deliver ready w r (hostLater s)) := by
  obtain ⟨b, n, hb, hrun⟩ := h.runs_of_busy hc
  cases ready with
  | false => exact explained_of_busy hc hb hrun
  | true => exact explained_of_idle rfl (hb.deliver (s := hostLater s) hrun hc hr)

theorem Explained.step (s t : State) (h : Explained s) (ht : step s = .next t) : Explained t := by
  obtain ⟨-, e⟩ | ⟨-, hc, e⟩ | ⟨hrst, w, i, hc, hn, -⟩ | ⟨hrst, w, why, hc, hn, -⟩ | ⟨-, w, r, hc, hr, e⟩ := step_cases s
  case inr.inr.inl => exact h.execute ⟨hc, hn, hrst⟩ ht
  case inr.inr.inr.inl => exact h.execute ⟨hc, hn, hrst⟩ ht
  all_goals
    rw [ht, Host.Outcome.next.injEq] at e
    rw [e]
  · exact explained_resetBlock _
  · exact h.accept hc _
  · exact h.deliver hc hr _

/-- A block that has run from reset and is idle has answered its commands one after the other, whatever its host did. -/
theorem answered_of_runs {h : List HostInput} {n : Nat} {t : State} (hrun : Runs n { State.reset with host := h } t)
    (hc : t.cmd = none) : Answered t.trace t.view :=
  (runs_keep Explained Explained.step n _ t (explained_resetBlock { State.reset with host := h }) hrun).answered_of_idle hc

/-- Settles O23: what each of the two idle blocks has delivered, and its view, are determined by the same command words. -/
theorem responsesDependOnCommandWordsOnly : Obligations.ResponsesDependOnCommandWordsOnly := by
  intro h₁ h₂ n₁ n₂ t₁ t₂ hrun₁ hrun₂ hc₁ hc₂ hwords
  obtain ⟨htrace, hview⟩ := (answered_of_runs hrun₁ hc₁).unique (answered_of_runs hrun₂ hc₂) hwords
  have hseeded : t₁.seeded = t₂.seeded := by rw [← view_seeded, hview, view_seeded]
  refine ⟨htrace, hseeded, fun hs => ?_⟩
  rw [← view_gen_of_seeded hs, hview, view_gen_of_seeded (hseeded ▸ hs)]

end Sys2Proof.Machine

namespace Sys2Proof.Machine

/-! ### The operations of the source -/

theorem firstError_map_ok (ws : List Word64) : firstError (ws.map (Response.mk .ok)) = none := by
  induction ws with
  | nil => rfl
  | cons w ws ih => exact ih

/-- An operation whose commands were all answered OK returns its value (44_pseudo_ops.md R97). -/
theorem result_of_all_ok (op : SourceOp) (ws : List Word64) (h : ws.length = op.commands.length) :
    op.result (ws.map (Response.mk .ok)) = .returned (op.value ws) := by
  obtain ⟨e, he, -⟩ | ⟨-, hlt, -⟩ | ⟨-, -, hv⟩ := result_cases op (ws.map (Response.mk .ok))
  · simp [firstError_map_ok] at he
  · simp [h] at hlt
  · rw [hv, List.map_map, Function.comp_def, List.map_id']

/-- A pattern read as two's complement, in numbers (00_scope.md R6). -/
theorem toInt_eq_ite {n : Nat} (v : BitVec (n + 1)) :
    v.toInt = if v.toNat < 2 ^ n then (v.toNat : Int) else (v.toNat : Int) - 2 ^ (n + 1) := by
  have hlow : 2 * v.toNat < 2 ^ (n + 1) ↔ v.toNat < 2 ^ n := by
    rw [pow_succ]
    omega
  rw [BitVec.toInt_eq_toNat_cond, Nat.cast_pow, Nat.cast_ofNat]
  simp only [hlow]

theorem readInt64_eq (w : Word64) :
    readInt64 w = if w.toNat < 2 ^ 63 then (w.toNat : Int) else (w.toNat : Int) - 2 ^ 64 :=
  toInt_eq_ite (n := 63) w

theorem readInt32_eq (w : Word64) :
    readInt32 w = if w.toNat % 2 ^ 32 < 2 ^ 31 then ((w.toNat % 2 ^ 32 : Nat) : Int)
      else ((w.toNat % 2 ^ 32 : Nat) : Int) - 2 ^ 32 := by
  rw [← BitVec.toNat_setWidth]
  exact toInt_eq_ite (n := 31) (trunc32 w)

theorem readBool_eq (w : Word64) : readBool w = decide (w.toNat % 2 = 1) := by
  rw [readBool, BitVec.getLsbD, Nat.testBit_zero]

/-- Settles O35: each operation returns its reading of the one OK result. -/
theorem rawOutputsReadAsIntegersAndBool : Obligations.RawOutputsReadAsIntegersAndBool := by
  refine ⟨rfl, rfl, rfl, fun w => ⟨?_, ?_, ?_⟩⟩
  · rw [← readInt64_eq]
    exact result_of_all_ok .nextInt64 [w] rfl
  · rw [← readInt32_eq]
    exact result_of_all_ok .nextInt32 [w] rfl
  · rw [← readBool_eq]
    exact result_of_all_ok .nextBool [w] rfl

/-- A seeded block answers a command OK or INVALID_ARGUMENT (60_exceptions.md R101, R102). -/
theorem status_of_exec_seeded {i : Instr} {s t : State} {r : Response} (hs : s.seeded = true) (hn : s.rsp = none)
    (h : exec i s = .next t) (hr : t.rsp = some r) : r.status = .ok ∨ r.status = .invalidArgument := by
  obtain ⟨_, _, e⟩ | ⟨_, _, e⟩ | ⟨_, _, _, _, e⟩ | ⟨_, _, _, _, _, _, e⟩ | ⟨_, _, _, _, _, _, e⟩ |
    ⟨_, _, ⟨hu, _⟩ | ⟨_, _, _, e⟩⟩ := exec_cases i s
  case inr.inr.inr.inr.inr.inl => simp [hs] at hu
  all_goals
    rw [h, Host.Outcome.next.injEq] at e
    rw [e] at hr
  case inr.inr.inr.inr.inl => simp [hn] at hr
  all_goals
    rw [← Option.some.inj hr]
    simp

/-- The answer to a command is INVALID_ARGUMENT exactly when it is a BOUNDED with a non-positive bound. -/
theorem Answers.invalidArgument_iff {i : Instr} {r : Response} (h : Answers (encode i) r) :
    r.status = .invalidArgument ↔ ∃ b, i = .bounded b ∧ b.toInt ≤ 0 := by
  rw [h.invalid_iff, decode_encode]
  simp only [Decoded.instr.injEq]

/-- Settles O36: the status is OK or INVALID_ARGUMENT, and a legal answer is the latter exactly for a non-positive bound. -/
theorem seededHostSeesOnlyInvalidArgument : Obligations.SeededHostSeesOnlyInvalidArgument := by
  intro i s t r hs hw h hr
  rw [step_of_executing_instr hw (decode_encode i)] at h
  obtain ⟨-, hn, -⟩ := hw
  have hans : Answers (encode i) r := answers_of_exec (s := hostLater s) (decode_encode i) hn h r hr
  rw [← hans.invalidArgument_iff]
  obtain hst | hst := status_of_exec_seeded (s := hostLater s) hs hn h hr <;> rw [hst]
  · exact .inl ⟨rfl, by decide⟩
  · exact .inr ⟨rfl, rfl⟩

/-! ### Filling a buffer -/

theorem hostScript_cons (i : Instr) (is : List Instr) : hostScript (i :: is) = transaction (encode i) 1 ++ hostScript is :=
  List.flatMap_cons

/-- One NEXT64 on a seeded idle block, from presentation to delivery (41_generator.md R64; log entry 7). -/
theorem runs_next64 {s : State} {rest : List HostInput} (hi : Idle s) (hs : s.seeded = true)
    (hhost : s.host = transaction (encode .next64) 1 ++ rest) :
    ∃ t, Runs 3 s t ∧ Idle t ∧ t.host = rest ∧ t.seeded = true ∧ t.gen = advance s.gen ∧
      t.trace = s.trace ++ [(encode .next64, ⟨.ok, output s.gen⟩)] := by
  have hu : runCommand (encode .next64) { s with cmd := some (encode .next64), work := none } =
      .next (complete (advance s.gen) (output s.gen) { s with cmd := some (encode .next64), work := none }) := by
    rw [runCommand_of_instr _ _ _ (decode_encode _)]
    exact exec_next64_of_seeded _ hs
  have hrun := runs_transaction s _ _ _ 0 rest hi hu (complete_rsp _ _ _)
  rw [Nat.zero_add, Nat.zero_add, ← hhost] at hrun
  exact ⟨_, hrun, (idle_iff _).2 ⟨rfl, rfl⟩, rfl, hs, complete_gen (advance s.gen) (output s.gen) s, rfl⟩

/-- The answers to `k` NEXT64 commands, from the words `g`. -/
def rawPairs (g : Gen) (k : Nat) : List (CmdWord × Response) :=
  (List.range k).map fun i => (encode .next64, ⟨.ok, rawAfter g i⟩)

theorem rawPairs_succ (g : Gen) (k : Nat) :
    rawPairs g (k + 1) = (encode .next64, ⟨.ok, output g⟩) :: rawPairs (advance g) k := by
  rw [rawPairs, List.range_succ_eq_map, List.map_cons, List.map_map, rawAfter_zero, rawPairs]
  simp only [Function.comp_def, ← genAfter_one, rawAfter_genAfter]

/-- `k` NEXT64 commands one after the other draw `k` times (20_memory.md R25; log entry 7). -/
theorem runs_next64s (k : Nat) {s : State} (hi : Idle s) (hs : s.seeded = true)
    (hhost : s.host = hostScript (List.replicate k .next64)) :
    ∃ t, Runs (3 * k) s t ∧ Idle t ∧ t.seeded = true ∧ t.gen = genAfter s.gen k ∧
      t.trace = s.trace ++ rawPairs s.gen k := by
  induction k generalizing s with
  | zero => exact ⟨s, (runs_zero _ _).2 rfl, hi, hs, (genAfter_zero _).symm, (List.append_nil _).symm⟩
  | succ k ih =>
    rw [List.replicate_succ, hostScript_cons] at hhost
    obtain ⟨u, hrun, hiu, hhu, hsu, hgu, htu⟩ := runs_next64 hi hs hhost
    obtain ⟨t, hrun', hit, hst, hgt, htt⟩ := ih hiu hsu hhu
    refine ⟨t, ?_, hit, hst, ?_, ?_⟩
    · rw [Nat.mul_succ, Nat.add_comm]
      exact runs_append 3 (3 * k) _ _ _ hrun hrun'
    · rw [hgt, hgu, genAfter_add, genAfter_one]
    · rw [htt, htu, hgu, rawPairs_succ, List.append_assoc, List.singleton_append]

theorem rawPairs_words (g : Gen) (k : Nat) : (rawPairs g k).map Prod.fst = List.replicate k (encode .next64) := by
  simp [rawPairs, Function.comp_def, List.map_const']

theorem rawPairs_responses (g : Gen) (k : Nat) :
    (rawPairs g k).map Prod.snd = ((List.range k).map (rawAfter g)).map (Response.mk .ok) := by
  simp [rawPairs, Function.comp_def]

theorem byteOf_eq (w : Word64) (j : Nat) : byteOf w j = BitVec.ofNat 8 (w.toNat / 2 ^ (8 * j)) := by
  rw [byteOf, BitVec.extractLsb', Nat.shiftRight_eq_div_pow]

theorem length_fillStore (n : Nat) (ws : List Word64) : (fillStore n ws).length = n := by
  rw [fillStore, List.length_map, List.length_range]

/-- Byte `p` of the buffer is byte `p mod 8` of raw output `p / 8` (44_pseudo_ops.md R96, 20_memory.md R22). -/
theorem fillStore_getElem? {n p : Nat} (g : Gen) (hp : p < n) :
    (fillStore n ((List.range ((n + 7) / 8)).map (rawAfter g)))[p]? =
      some (BitVec.ofNat 8 ((rawAfter g (p / 8)).toNat / 2 ^ (8 * (p % 8)))) := by
  have hdraw : p / 8 < (n + 7) / 8 := by omega
  have hraw : ((List.range ((n + 7) / 8)).map (rawAfter g)).getD (p / 8) 0 = rawAfter g (p / 8) := by
    simp [List.getD, hdraw]
  rw [fillStore, List.getElem?_map, List.getElem?_range hp, Option.map_some, hraw, byteOf_eq]

/-- Settles O34: the NEXT64 commands run one after the other, and their results fill the buffer. -/
theorem fillBytesStoresLittleEndianDraws : Obligations.FillBytesStoresLittleEndianDraws := by
  intro s n hi hs hhost
  obtain ⟨t, hrun, hit, hst, hgen, htrace⟩ := runs_next64s ((n + 7) / 8) hi hs hhost
  refine ⟨t, _, _, hrun, hit, hgen, hst, htrace, rawPairs_words _ _, ?_, length_fillStore _ _,
    fun p hp => fillStore_getElem? s.gen hp⟩
  rw [rawPairs_responses, result_of_all_ok _ _ (by simp [SourceOp.commands, fillDraws]), SourceOp.value]

end Sys2Proof.Machine

namespace Sys2Proof.Machine

/-! ### The errors: the order of the checks, the effect of a failing one, and that nothing stops the block -/

/-- Every command goes on to a next state, whatever it answers (60_exceptions.md R105). -/
theorem exec_total (i : Instr) (s : State) : ∃ t, exec i s = .next t := by
  cases i with
  | seed _ | mix _ | next64 | bounded _ | f64 | f32 => exact ⟨_, rfl⟩

/-- Settles O21: the ports and the ILLEGAL answer give a next state, and so does every command. -/
theorem everyStepAnswersANextState : Obligations.EveryStepAnswersANextState := by
  intro s
  obtain ⟨-, e⟩ | ⟨-, -, e⟩ | ⟨-, w, i, -, -, -, e⟩ | ⟨-, w, why, -, -, -, e⟩ | ⟨-, w, r, -, -, e⟩ := step_cases s
  case inr.inr.inl =>
    rw [e]
    exact exec_total i (hostLater s)
  all_goals exact ⟨_, e⟩

theorem passesArgumentCheck_iff (i : Instr) : PassesArgumentCheck i ↔ ¬ ∃ b, i = .bounded b ∧ b.toInt ≤ 0 := by
  simp only [PassesArgumentCheck, not_exists, not_and, not_le]

/-- The state check is the one a drawing command with a legal argument fails on an unseeded block (60_exceptions.md R102). -/
theorem exec_drawing_of_unseeded {i : Instr} {s : State} (hs : s.seeded = false) (hdraw : drawing i = true)
    (hi : PassesArgumentCheck i) : exec i s = .next (fail .unseeded s) := by
  obtain ⟨_, rfl, -⟩ | ⟨_, rfl, -⟩ | ⟨hs', -⟩ | ⟨_, -, hs', -⟩ | ⟨_, -, hs', -⟩ | ⟨-, -, ⟨-, e⟩ | ⟨b, hb, hle, -⟩⟩ :=
    exec_cases i s
  case inr.inr.inr.inr.inr.inl => exact e
  case inr.inr.inr.inr.inr.inr => exact absurd (hi b hb) hle.not_gt
  · simp [drawing] at hdraw
  · simp [drawing] at hdraw
  all_goals simp [hs] at hs'

/-- Only a drawing command on an unseeded block is answered UNSEEDED: a seeded block never says so, and every answer is a legal
one to its word. -/
theorem unseeded_of_exec {i : Instr} {s t : State} {r : Response} (hn : s.rsp = none) (h : exec i s = .next t)
    (hr : t.rsp = some r) (hst : r.status = .unseeded) : s.seeded = false ∧ drawing i = true := by
  constructor
  · rw [← Bool.not_eq_true]
    intro hs
    have hstatus := status_of_exec_seeded hs hn h hr
    simp [hst] at hstatus
  · obtain ⟨j, hd, hdraw⟩ := (answers_of_exec (decode_encode i) hn h r hr).unseeded_draws hst
    rw [decode_encode, Decoded.instr.injEq] at hd
    rwa [hd]

/-- Settles O12: the state check fails, and it is the only one that answers UNSEEDED. -/
theorem unseededBlockAnswersUnseeded : Obligations.UnseededBlockAnswersUnseeded := by
  refine ⟨fun i s hs hdraw hi => ?_, fun i s t r hn h hr hst => unseeded_of_exec hn h hr hst⟩
  rw [exec_drawing_of_unseeded hs hdraw hi, fail_eq]

/-- A command not answered OK only responds: whatever writes the words answers OK, and a rejected draw answers nothing. -/
theorem eq_respond_of_exec_not_ok {i : Instr} {s t : State} {r : Response} (hn : s.rsp = none) (h : exec i s = .next t)
    (hr : t.rsp = some r) (hst : r.status ≠ .ok) : t = respond r.status r.result s := by
  obtain ⟨_, -, rfl⟩ | ⟨-, st, v, rfl⟩ | ⟨-, -, _, _, -, rfl⟩ | ⟨_, -, -, -, -, rfl⟩ := exec_next_cases i s t h
  · rw [complete_rsp, Option.some.injEq] at hr
    simp [← hr] at hst
  · rw [respond_rsp, Option.some.injEq] at hr
    rw [← hr]
  · rw [complete_rsp, Option.some.injEq] at hr
    simp [← hr] at hst
  · simp [hn] at hr

theorem eq_respond_of_runCommand_not_ok {w : CmdWord} {s t : State} {r : Response} (hn : s.rsp = none)
    (h : runCommand w s = .next t) (hr : t.rsp = some r) (hst : r.status ≠ .ok) :
    t = respond r.status r.result s := by
  cases hd : decode w with
  | instr i =>
    rw [runCommand_of_instr w i s hd] at h
    exact eq_respond_of_exec_not_ok hn h hr hst
  | illegal why =>
    rw [runCommand_of_illegal w why s hd, Host.Outcome.next.injEq] at h
    rw [← h, fail_rsp, Option.some.injEq] at hr
    rw [← h, ← hr, fail]

/-- Settles O31: the block only responds, and a legal answer that is not OK has result 0. -/
theorem errorsHaveNoEffect : Obligations.ErrorsHaveNoEffect := by
  rintro s t w r ⟨hc, hn, hrst⟩ h hr hst
  rw [step_of_executing s w hrst hc hn] at h
  refine ⟨(answers_of_runCommand (s := hostLater s) hn h hr).zero_unless_ok hst, ?_⟩
  rw [eq_respond_of_runCommand_not_ok (s := hostLater s) hn h hr hst, respond_eq, hostLater_eq]

/-- A command whose argument check and state check pass answers OK if it answers (60_exceptions.md R104). -/
theorem status_ok_of_checks_pass {i : Instr} {s t : State} {r : Response} (hn : s.rsp = none)
    (hi : PassesArgumentCheck i) (hseeded : drawing i = true → s.seeded = true) (h : exec i s = .next t)
    (hr : t.rsp = some r) : r.status = .ok := by
  have hans : Answers (encode i) r := answers_of_exec (decode_encode i) hn h r hr
  cases hst : r.status with
  | ok => rfl
  | invalidArgument => exact absurd (hans.invalidArgument_iff.1 hst) ((passesArgumentCheck_iff i).1 hi)
  | unseeded =>
    obtain ⟨hs, hdraw⟩ := unseeded_of_exec hn h hr hst
    simp [hseeded hdraw] at hs
  | illegal =>
    have hlegal : legalWord (encode i) = true := legalWord_of_decode _ i (decode_encode i)
    simp [hans.illegal_iff.1 hst] at hlegal

/-- Settles O40: a check that fails gives its own status, and no status but OK is left when none does. -/
theorem firstFailedCheckGivesTheStatus : Obligations.FirstFailedCheckGivesTheStatus := by
  refine fun s w hw => ⟨fun hillegal => ?_, fun i hd => ⟨legalWord_of_decode w i hd, ?_⟩⟩
  · obtain ⟨why, hd⟩ := (legalWord_eq_false_iff_decode w).1 hillegal
    exact ⟨_, step_of_executing_illegal hw hd, fail_rsp _ _⟩
  · rw [step_of_executing_instr hw hd, ← passesArgumentCheck_iff]
    obtain ⟨-, hn, -⟩ := hw
    refine ⟨?_, fun hi hdraw hs => ?_, fun hi hseeded => ?_⟩
    · rintro ⟨b, rfl, hb⟩
      exact ⟨_, exec_bounded_of_nonpos (hostLater s) hb, fail_rsp _ _⟩
    · exact ⟨_, exec_drawing_of_unseeded (s := hostLater s) hs hdraw hi, fail_rsp _ _⟩
    · obtain ⟨t, ht⟩ := exec_total i (hostLater s)
      exact ⟨t, ht, fun r hr => status_ok_of_checks_pass (s := hostLater s) hn hi hseeded ht hr⟩

end Sys2Proof.Machine

namespace Sys2Proof.Machine

/-! ### Reset -/

theorem idle_resetBlock (s : State) : Idle (resetBlock s) :=
  (idle_iff _).2 ⟨resetBlock_cmd s, resetBlock_rsp s⟩

/-- Settles O1: a step with `rst` answers the reset block, which keeps only the rest of the host's list. -/
theorem resetAbandonsWhateverRuns : Obligations.ResetAbandonsWhateverRuns := by
  refine ⟨⟨rfl, (idle_iff _).2 ⟨rfl, rfl⟩, rfl, rfl⟩,
    fun s hrst => ⟨resetBlock (hostLater s), step_of_rst s hrst, ?_⟩⟩
  exact ⟨resetBlock_seeded _, idle_resetBlock _, resetBlock_work _, resetBlock_trace _,
    (resetBlock_host _).trans (hostLater_host s)⟩

end Sys2Proof.Machine
